-- ==== Sys2Proof/Word.lean ====
section
/-!
DEFINITION. The widths of 00_scope.md R8. Every value of the block is unsigned (R11), so each is a plain bit vector:
`a + b` on `BitVec N` is the spec's `a +_N b`, `a - b` its `a -_N b`, `setWidth` its `zext` and `trunc`.
-/

namespace Sys2Proof

/-- A command word, and the data width of the port: `W_CMD` = 32 (R8). Also `W_MS` = 32, a millisecond count. -/
abbrev Word := BitVec 32

/-- A colour channel, the stored brightness, the wheel phase, a byte of a frame: 8 bits (R8). -/
abbrev Byte := BitVec 8

/-- A packed colour and an operand field: `W_PACKED` = `W_INTERVAL` = 24 bits (R8, R54). -/
abbrev Packed := BitVec 24

/-- A word address of the port, 0 to 7 (R38, R39). -/
abbrev PortAddr := BitVec 3

end Sys2Proof
end

