-- ==== Sys2Proof/Syntax.lean ====
section
/-!
DEFINITION. The commands of DSCMD v1: one constructor per row of spec/opcode_table.json (30_encoding.md R59), with the operand
fields R57 extracts. The operand types have the fields' own widths, so no term of this type holds an operand out of its range.
An illegal word is no command (R63): decoding refuses it by name and the machine records it (60_exceptions.md R104).
-/

namespace Sys2Proof

/-- A decoded command word. -/
inductive Instr where
  /-- SETPWR, layout EN1: `en = w[0]` (R67). -/
  | setPwr (en : Bool)
  /-- SETBRI, layout LVL8: `level = w[7:0]` (R71). -/
  | setBri (level : Byte)
  /-- SETPIX, layout RGB24 (R73). -/
  | setPix (r g b : Byte)
  /-- SETPIXP, layout RGB24 read as one packed value (R74). -/
  | setPixP (packed : Packed)
  /-- CLEAR (R75). -/
  | clear
  /-- SHOW (R77). -/
  | showPixel
  /-- CYCLE, layout INT24: the interval in milliseconds (R94). -/
  | cycle (interval : Packed)
  /-- COLOR, layout RGB24 (R101). -/
  | color (r g b : Byte)
deriving DecidableEq, Repr

end Sys2Proof
end

