-- ==== Sys2Proof/WellFormed.lean ====
section
/-!
DEFINITION. Well-formed commands. A command as a programmer writes it (30_encoding.md R64) has plain numbers as operands;
`AsmCmd.wellFormed` is the range check of R64's table, and `AsmCmd.toInstr` gives the command of a well-formed term and refuses
any other. `Instr.toAsm` writes a decoded command back; it is always well formed (Laws/Assembler.lean), so every term of `Instr` is a
well-formed command and statements over `Instr` need no such premise.
-/

namespace Sys2Proof

/-- A line of assembler source after its numbers are read (R64): one of the eight commands, or `.word`. -/
inductive AsmCmd where
  | setPwr (en : ℕ)
  | setBri (level : ℕ)
  | setPix (r g b : ℕ)
  | setPixP (packed : ℕ)
  | clear
  | showPixel
  | cycle (interval : ℕ)
  | color (r g b : ℕ)
  /-- `.word <imm32>`: "the only way to write an illegal opcode or nonzero ignored bits" (R64). -/
  | word (imm : ℕ)
deriving DecidableEq, Repr

/-- The operand ranges of R64. The assembler "rejects an operand outside its range; it never truncates one". -/
def AsmCmd.wellFormed : AsmCmd → Bool
  | .setPwr en => en < 2
  | .setBri level => level < 256
  | .setPix r g b => r < 256 && g < 256 && b < 256
  | .setPixP packed => packed < 2 ^ 24
  | .clear => true
  | .showPixel => true
  | .cycle interval => interval < 2 ^ 24
  | .color r g b => r < 256 && g < 256 && b < 256
  | .word imm => imm < 2 ^ 32

/-- The command a well-formed line stands for; `.word` stands for a word, not a command. -/
def AsmCmd.toInstr (c : AsmCmd) : Option Instr :=
  if c.wellFormed then
    match c with
    | .setPwr en => some (.setPwr (en == 1))
    | .setBri level => some (.setBri (BitVec.ofNat 8 level))
    | .setPix r g b => some (.setPix (BitVec.ofNat 8 r) (BitVec.ofNat 8 g) (BitVec.ofNat 8 b))
    | .setPixP packed => some (.setPixP (BitVec.ofNat 24 packed))
    | .clear => some .clear
    | .showPixel => some .showPixel
    | .cycle interval => some (.cycle (BitVec.ofNat 24 interval))
    | .color r g b => some (.color (BitVec.ofNat 8 r) (BitVec.ofNat 8 g) (BitVec.ofNat 8 b))
    | .word _ => none
  else none

/-- A command written with its fields as numbers (R66). -/
def Instr.toAsm : Instr → AsmCmd
  | .setPwr en => .setPwr en.toNat
  | .setBri level => .setBri level.toNat
  | .setPix r g b => .setPix r.toNat g.toNat b.toNat
  | .setPixP packed => .setPixP packed.toNat
  | .clear => .clear
  | .showPixel => .showPixel
  | .cycle interval => .cycle interval.toNat
  | .color r g b => .color r.toNat g.toNat b.toNat

end Sys2Proof
end

