-- ==== Sys2Proof/Decode.lean ====
section
/-!
DEFINITION. The decoder of 30_encoding.md R63, total on every 32-bit word and rejecting by name, and after it the encoder from the
same rules (R54 to R59). Also the order in which a byte-addressed bridge sees a word's bytes (20_memory.md R41) and the host's
entry `decodeTableWord`.
-/

namespace Sys2Proof

/-- Why a word or a run of bytes is no command. -/
inductive DecodeError where
  /-- `op` is 0x00 or 0x09 to 0xFF (R60). The machine takes IllegalCommand (R104). -/
  | illegalCommand (w : Word)
  /-- Not the four bytes of one whole word: "a narrower or misaligned access to CMD is outside this spec" (R41, R62). -/
  | notOneWord
deriving DecidableEq, Repr

/-- `op = w[31:24]` (R55). -/
def opField (w : Word) : Byte := w.extractLsb' 24 8

/-- `opd = w[23:0]`; also `packed` and `interval` (R54, R57). -/
def opdField (w : Word) : Packed := w.extractLsb' 0 24

/-- `r = w[23:16]` of layout RGB24 (R56). -/
def redField (w : Word) : Byte := w.extractLsb' 16 8

/-- `g = w[15:8]` of layout RGB24 (R56). -/
def greenField (w : Word) : Byte := w.extractLsb' 8 8

/-- `b = w[7:0]` of layout RGB24, and `level` of layout LVL8 (R56). -/
def blueField (w : Word) : Byte := w.extractLsb' 0 8

/-- `en = w[0]` of layout EN1 (R56). -/
def enField (w : Word) : Bool := w.getLsbD 0

/-- The decoder (R63): all eight bits of `op` are compared (R55). -/
def decode (w : Word) : Except DecodeError Instr :=
  if opField w = 0x01#8 then .ok (.setPwr (enField w))
  else if opField w = 0x02#8 then .ok (.setBri (blueField w))
  else if opField w = 0x03#8 then .ok (.setPix (redField w) (greenField w) (blueField w))
  else if opField w = 0x04#8 then .ok (.setPixP (opdField w))
  else if opField w = 0x05#8 then .ok .clear
  else if opField w = 0x06#8 then .ok .showPixel
  else if opField w = 0x07#8 then .ok (.cycle (opdField w))
  else if opField w = 0x08#8 then .ok (.color (redField w) (greenField w) (blueField w))
  else .error (.illegalCommand w)

/-- The opcode of each command (R59). -/
def opcode : Instr → Byte
  | .setPwr _ => 0x01#8
  | .setBri _ => 0x02#8
  | .setPix _ _ _ => 0x03#8
  | .setPixP _ => 0x04#8
  | .clear => 0x05#8
  | .showPixel => 0x06#8
  | .cycle _ => 0x07#8
  | .color _ _ _ => 0x08#8

/-- The operand field of each command in its layout (R56), ignored bits 0 (R64). -/
def operand : Instr → Packed
  | .setPwr en => (BitVec.ofBool en).setWidth 24
  | .setBri level => level.setWidth 24
  | .setPix r g b => r ++ g ++ b
  | .setPixP packed => packed
  | .clear => 0#24
  | .showPixel => 0#24
  | .cycle interval => interval
  | .color r g b => r ++ g ++ b

/-- The command word: `op` in bits 31:24, the operand in 23:0 (R54). -/
def encode (i : Instr) : Word := opcode i ++ operand i

/-- The bits of a command's word that its layout marks "ignored" (R56): they have no effect (R58). -/
def ignoredMask : Instr → Word
  | .setPwr _ => 0x00FFFFFE#32
  | .setBri _ => 0x00FFFF00#32
  | .setPix _ _ _ => 0#32
  | .setPixP _ => 0#32
  | .clear => 0x00FFFFFF#32
  | .showPixel => 0x00FFFFFF#32
  | .cycle _ => 0#32
  | .color _ _ _ => 0#32

/-- The bytes of a word as a byte-addressed bridge sees them: byte `k` is bits `[8k+7 : 8k]` (R41). -/
def wordBytes (w : Word) : List Byte :=
  [w.extractLsb' 0 8, w.extractLsb' 8 8, w.extractLsb' 16 8, w.extractLsb' 24 8]

/-- The word a bridge makes of the bytes of one access; none unless they are the four bytes of a whole word (R41). -/
def wordOfBytes : List Byte → Option Word
  | [b0, b1, b2, b3] => some (b3 ++ b2 ++ b1 ++ b0)
  | _ => none

/-- Decoding on any run of bytes, lowest address first: the command of the first word and the bytes after it. -/
def decodeBytes : List Byte → Except DecodeError (Instr × List Byte)
  | b0 :: b1 :: b2 :: b3 :: rest =>
    match decode (b3 ++ b2 ++ b1 ++ b0) with
    | .ok i => .ok (i, rest)
    | .error e => .error e
  | _ => .error .notOneWord

/-- The command this decoder reads from a row's word of spec/opcode_table.json. Every word is 32 bits (R62): the bits above
`nbits` are 0, and there is no second word. -/
def decodeTableWord (nbits w : ℕ) : Option Instr :=
  match decode (BitVec.ofNat 32 (w % 2 ^ nbits)) with
  | .ok i => some i
  | .error _ => none

end Sys2Proof
end

