-- ==== Sys2Proof/Config.lean ====
section
/-!
DEFINITION. What an implementation of the block fixes (00_scope.md R8): the parameter P_CYCLE_DOUBLE_SHOW, and the OPEN timing
parameters, which are constants without a body: nothing can be proved about their values beyond what R8 says.
-/

namespace Sys2Proof

/-- The parameters a state carries, because a claim may be about either value (R8, R99, decision D16). No step changes them. -/
structure Config where
  /-- `P_CYCLE_DOUBLE_SHOW`: an eligible CYCLE transmits twice (R99). -/
  cycleDoubleShow : Bool
deriving DecidableEq, Repr

/-- The default of R8: `P_CYCLE_DOUBLE_SHOW` = true. -/
def defaultConfig : Config := { cycleDoubleShow := true }

/-- The timing parameters a `Wait` names (R8, R90). -/
inductive TimingParam where
  | settle    -- T_SETTLE, after lazy initialisation (R79)
  | gap       -- T_GAP, after each byte (R89)
  | setup     -- T_SETUP, data valid before the clock rises (R88)
  | clkHigh   -- T_CLK_HIGH (R88)
  | clkLow    -- T_CLK_LOW (R88)
deriving DecidableEq, Repr

/-- `T_SETTLE`, OPEN and greater than 0, in cycles of `clk` (R8, R113). -/
opaque tSettle : ℕ+
/-- `T_GAP`, OPEN and greater than 0 (R8, R89). -/
opaque tGap : ℕ+
/-- `T_SETUP`, OPEN (R8). -/
opaque tSetup : ℕ
/-- `T_CLK_HIGH`, OPEN (R8). -/
opaque tClkHigh : ℕ
/-- `T_CLK_LOW`, OPEN (R8). -/
opaque tClkLow : ℕ
/-- `F_CLK`, the frequency of the block clock, OPEN (R38). No rule of the block reads it. -/
opaque fClk : ℕ

/-- The least number of `clk` cycles a `Wait` of the parameter takes (R9, R113). -/
def TimingParam.cycles : TimingParam → ℕ
  | .settle => tSettle
  | .gap => tGap
  | .setup => tSetup
  | .clkHigh => tClkHigh
  | .clkLow => tClkLow

/-- `FRAME_BYTES` = 9 (R8, R80). -/
def frameBytes : ℕ := 9

end Sys2Proof
end

