-- ==== Sys2Proof/Machine/State.lean ====
section
/-!
DEFINITION. The state of the block: every field of 10_state.md R15, the sequencer position of R28, the ports and the wire trace
(20_memory.md R38, 43_show_frame.md R90), and what the outside does next. Plain data throughout.
-/

namespace Sys2Proof.Machine

/-- The mode of a signal line (R25). -/
inductive LineMode where
  | out    -- OUT, digital output
  | inPd   -- IN_PD, input with pull-down
deriving DecidableEq, Repr

/-- The two signal lines (R25). -/
inductive Line where
  | data
  | clk
deriving DecidableEq, Repr

/-- The four kinds of wire event (R90). A level is a Bool: true is 1. -/
inductive WireEvent where
  | pwr (level : Bool)
  | mode (line : Line) (m : LineMode)
  | set (line : Line) (level : Bool)
  | wait (t : TimingParam)
deriving DecidableEq, Repr

/-- `seq_step` (R28). -/
inductive SeqStep where
  | idle | power | init | frame | done
deriving DecidableEq, Repr

/-- The line state: what wire events write (R90) and the lines show (R26). -/
structure Lines where
  /-- `pwr_n`: the level of the power-enable line, active low (R24). -/
  pwrN : Bool
  /-- `data_mode`, `clk_mode`: the modes of the signal lines (R25). -/
  dataMode : LineMode
  clkMode : LineMode
  /-- `data_lat`, `clk_lat`: the output latches of the signal lines (R25). -/
  dataLat : Bool
  clkLat : Bool
deriving DecidableEq, Repr

/-- The line state after reset: unpowered, pulled down, latches 0 (R24, R25, R117). -/
def resetLines : Lines :=
  { pwrN := true, dataMode := .inPd, clkMode := .inPd, dataLat := false, clkLat := false }

/-- The sequencer position (R28): what the sequencer does at its next tick. -/
structure SeqPos where
  /-- `seq_cmd`: the accepted command word. -/
  cmd : Word
  /-- `seq_step`. -/
  step : SeqStep
  /-- `seq_frames_left`: 0, 1 or 2 frames still to send. -/
  framesLeft : Fin 3
  /-- `seq_byte`: the frame byte index. -/
  byte : Fin 9
  /-- `seq_bit`: 7 down to 0. -/
  bit : Fin 8
  /-- `seq_sub`: the point within the step's events (log 7). -/
  sub : Fin 7
deriving DecidableEq, Repr

/-- The position between commands: `seq_step` = IDLE (R28), the other parts at fixed values (log 7, DESIGN CHOICE: not observable). -/
def idlePos : SeqPos :=
  { cmd := 0#32, step := .idle, framesLeft := 0, byte := 0, bit := 7, sub := 0 }

/-- One transfer on the register port: a whole word at a word address (R40). -/
inductive PortAccess where
  | read (a : PortAddr)
  | write (a : PortAddr) (d : Word)
deriving DecidableEq, Repr

/-- What the outside does (log 2): the transfers of the one host, the millisecond input, the passing of the block's own time, reset. -/
inductive Input where
  /-- `MemWrite(0, 4, w)` at the command level of R13: the word is accepted once the block is idle, and the command runs to
  completion before anything else is looked at. -/
  | command (w : Word)
  /-- A port transfer, seen event by event: a CMD write only starts its command, whose events follow one a tick (R46, R48). -/
  | access (x : PortAccess)
  /-- WAITIDLE (R65): read STATUS until bit 0 reads 0. -/
  | waitIdle
  /-- The input `now_ms` moves: it reads n from here on, whatever the block is doing (R112). -/
  | time (n : Word)
  /-- `@t=<n>` in the host's program (R65): `now_ms` reads n when the next command is accepted. It dates what comes after it, so it waits, as a
  transfer does, until a CMD write still held is accepted. -/
  | date (n : Word)
  /-- Time passes: the sequencer's next event takes place, the waits before it being over. -/
  | tick
  /-- `rst` = 1 at a rising edge of `clk`, with the transfer presented in that cycle, if any (R117). -/
  | reset (x : Option PortAccess)
  /-- A byte-addressed bridge reads `count` bytes at a byte offset (R41). -/
  | bridgeRead (offset count : ℕ)
  /-- A byte-addressed bridge writes bytes at a byte offset, lowest offset first (R41). -/
  | bridgeWrite (offset : ℕ) (bytes : List Byte)
  /-- A transfer of another host than the one of R7. -/
  | secondHost
deriving DecidableEq, Repr

/-- Why the machine stops with a fault. -/
inductive Fault where
  /-- Raised by a bridge access at a byte offset of 0x20 or more: the block has no register there (R39, R41). Safe (log 11). -/
  | noSuchRegister (offset : ℕ)
deriving DecidableEq, Repr

/-- Why the machine refuses to go on. -/
inductive Refusal where
  /-- Raised by an arm of `exec` for a command without a meaning. No arm of this model raises it. Safe. -/
  | notModelled (mnemonic : String)
  /-- Raised by a narrow or misaligned bridge access: "a model refuses it" (R41, S4 of 93_implementation_defined.md); and, the model's choice
  (log 28), by one wider than a word. Safe. -/
  | narrowOrMisaligned
  /-- Raised by a transfer of a second host: "a model refuses them" (R115, U1 of 93_implementation_defined.md). Safe. -/
  | secondHost
deriving DecidableEq, Repr

/-- The state of the block and its ports. -/
structure State where
  /-- `pixel_b`, `pixel_g`, `pixel_r`: the raw channels (R16). -/
  pixelB : Byte
  pixelG : Byte
  pixelR : Byte
  /-- `bright`: the stored brightness, requested level + 1 (R17). -/
  bright : Byte
  /-- `linked`: lazy initialisation is done (R18). -/
  linked : Bool
  /-- `phase`: the colour-wheel phase (R19). -/
  phase : Byte
  /-- `cyc_deadline` and `cyc_armed`: the rate limiter of CYCLE (R20). -/
  cycDeadline : Word
  cycArmed : Bool
  /-- `result`: the last COLOR result (R21). -/
  result : Packed
  /-- `ill` and `errw`: the sticky record of IllegalCommand (R22). -/
  ill : Bool
  errw : Word
  /-- `busy`: a command is executing (R23). -/
  busy : Bool
  /-- `pwr_n`, `data_mode`, `clk_mode`, `data_lat`, `clk_lat` (R24, R25). -/
  lines : Lines
  /-- The hidden sequencer position (R28). -/
  seq : SeqPos
  /-- `rdata`: the data of the latest read (R38, log 17). -/
  rdata : Word
  /-- `ready`: the host's latest transfer has completed (R38, R46, log 17). -/
  ready : Bool
  /-- A CMD write held by `ready` = 0 while `busy` = 1: a transfer in progress (R46, R51). -/
  held : Option Word
  /-- `now_ms`: the level of the millisecond input (R112, log 8). -/
  nowMs : Word
  /-- The wire events since reset, oldest first (R12, R90, R117). -/
  trace : List WireEvent
  /-- The implementation's parameters (R8). -/
  cfg : Config
  /-- What the outside does next, in its order (log 2). -/
  inputs : List Input
deriving DecidableEq, Repr

/-- The block right after reset (R15, R117). `rdata`, `ready` and `nowMs` are DESIGN CHOICE (log 8, log 17); nothing is presented. -/
def State.reset : State :=
  { pixelB := 0#8, pixelG := 0#8, pixelR := 0#8
    bright := 0#8, linked := false, phase := 0#8
    cycDeadline := 0#32, cycArmed := false
    result := 0#24, ill := false, errw := 0#32
    busy := false, lines := resetLines, seq := idlePos
    rdata := 0#32, ready := true, held := none, nowMs := 0#32
    trace := [], cfg := defaultConfig, inputs := [] }

end Sys2Proof.Machine
end

