-- ==== Sys2Proof/Machine/Operands.lean ====
section
/-!
DEFINITION. What commands make of their operands (30_encoding.md R57, 42_brightness_pixel.md R74, 45_color_pack.md R101). No operand is
sign-extended, scaled or shifted, and none reads a register (R57).
-/

namespace Sys2Proof.Machine

/-- Three colour channels. -/
structure Rgb where
  r : Byte
  g : Byte
  b : Byte
deriving DecidableEq, Repr

/-- The red channel of a packed colour, bits 23:16 (R74). -/
def packedRed (v : Packed) : Byte := v.extractLsb' 16 8

/-- The green channel of a packed colour, bits 15:8 (R74). -/
def packedGreen (v : Packed) : Byte := v.extractLsb' 8 8

/-- The blue channel of a packed colour, bits 7:0 (R74). -/
def packedBlue (v : Packed) : Byte := v.extractLsb' 0 8

/-- The packed colour `{r, g, b}` (R101). -/
def packColor (r g b : Byte) : Packed := r ++ g ++ b

/-- `interval = zext_32(w[23:0])` (R57). -/
def intervalMs (interval : Packed) : Word := interval.setWidth 32

end Sys2Proof.Machine
end

