-- ==== Sys2Proof/Machine/Flags.lean ====
section
/-!
DEFINITION. The block has no arithmetic flags (10_state.md R37): its flags are the bits of STATUS, each a view of state (R29). This file
holds every read-only view: the port registers R29 to R35, the line levels R26 and the output pins (20_memory.md R38).
-/

namespace Sys2Proof.Machine

/-- `powered`: the power line is asserted, active low (R24). -/
def powered (s : State) : Bool := !s.lines.pwrN

/-- One STATUS bit in its place. -/
def statusBit (b : Bool) (n : ℕ) : Word := (BitVec.ofBool b).setWidth 32 <<< n

/-- STATUS (R29). -/
def statusView (s : State) : Word :=
  statusBit s.busy 0
    ||| statusBit s.linked 1
    ||| statusBit (powered s) 2
    ||| statusBit s.ill 3
    ||| statusBit s.cycArmed 4
    ||| statusBit (s.lines.dataMode == .out) 5
    ||| statusBit (s.lines.clkMode == .out) 6
    ||| statusBit s.lines.dataLat 7
    ||| statusBit s.lines.clkLat 8

/-- RESULT (R34). -/
def resultView (s : State) : Word := s.result.setWidth 32

/-- PIXEL reads `{0x00, pixel_r, pixel_g, pixel_b}` (R30). -/
def pixelView (s : State) : Word := 0x00#8 ++ s.pixelR ++ s.pixelG ++ s.pixelB

/-- BRIGHT (R31). -/
def brightView (s : State) : Word := s.bright.setWidth 32

/-- PHASE (R32). -/
def phaseView (s : State) : Word := s.phase.setWidth 32

/-- CYCDL (R33). -/
def cycdlView (s : State) : Word := s.cycDeadline

/-- ERRW (R35). -/
def errwView (s : State) : Word := s.errw

/-- What a read of a word address returns (R39, R43): every one of the eight addresses is decoded, and CMD reads 0. -/
def portView (a : PortAddr) (s : State) : Word :=
  if a = 1#3 then statusView s
  else if a = 2#3 then resultView s
  else if a = 3#3 then pixelView s
  else if a = 4#3 then brightView s
  else if a = 5#3 then phaseView s
  else if a = 6#3 then cycdlView s
  else if a = 7#3 then errwView s
  else 0#32

/-- `line(DATA)` (R26). That a line in IN_PD reads 0 the spec marks as general knowledge (G1, log 15). -/
def lineData (l : Lines) : Bool := if l.dataMode = .out then l.dataLat else false

/-- `line(CLK)` (R26). -/
def lineClk (l : Lines) : Bool := if l.clkMode = .out then l.clkLat else false

/-- The output ports of the block (R38). -/
structure Pins where
  pwrNO : Bool
  dataO : Bool
  dataOe : Bool
  dataPd : Bool
  clkO : Bool
  clkOe : Bool
  clkPd : Bool
  rdata : Word
  ready : Bool
deriving DecidableEq, Repr

/-- The levels of the output ports (R38). -/
def pins (s : State) : Pins :=
  { pwrNO := s.lines.pwrN
    dataO := s.lines.dataLat, dataOe := s.lines.dataMode == .out, dataPd := s.lines.dataMode == .inPd
    clkO := s.lines.clkLat, clkOe := s.lines.clkMode == .out, clkPd := s.lines.clkMode == .inPd
    rdata := s.rdata, ready := s.ready }

end Sys2Proof.Machine
end

