-- ==== Sys2Proof/Machine/Ops.lean ====
section
/-!
DEFINITION. The operations the commands share: wire events and their effects (43_show_frame.md R90), the power and link sequences
(41_power_link.md), the multiplier, the frame, the serialiser and Transmit (43_show_frame.md), the pixel store, the one exception
(60_exceptions.md R104) and reset (70_reset_and_hazards.md R117).
-/

namespace Sys2Proof.Machine

/-! ### Wire events -/

/-- The effect of an event on the line state (R90). -/
def applyEvent (l : Lines) (e : WireEvent) : Lines :=
  match e with
  | .pwr v => { l with pwrN := v }
  | .mode .data m => { l with dataMode := m }
  | .mode .clk m => { l with clkMode := m }
  | .set .data v => { l with dataLat := v }
  | .set .clk v => { l with clkLat := v }
  | .wait _ => l

/-- The line state after a list of events, which take effect in list order, one at a time (R90). -/
def replay (es : List WireEvent) (l : Lines) : Lines := es.foldl applyEvent l

/-- `emit` for each event of a list in turn: it appends to the output trace (R12) and takes effect (R90). -/
def emitAll (es : List WireEvent) (s : State) : State :=
  { s with lines := replay es s.lines, trace := s.trace ++ es }

/-- `emit(e)` (R12). -/
def emit (e : WireEvent) (s : State) : State := emitAll [e] s

/-! ### Power and link -/

/-- The events of PowerEnable, in order, no `Wait` between them (R68). -/
def powerEnableEvents : List WireEvent := [.pwr false, .mode .data .out, .mode .clk .out]

/-- The events of PowerDisable, in order (R69). -/
def powerDisableEvents : List WireEvent := [.pwr true, .mode .data .inPd, .mode .clk .inPd]

/-- PowerEnable (R68); `linked` is unchanged (R70). -/
def powerEnable (s : State) : State := emitAll powerEnableEvents s

/-- PowerDisable (R69), which clears `linked` (R70). -/
def powerDisable (s : State) : State := { emitAll powerDisableEvents s with linked := false }

/-- The events of LazyInit (R79): power, clear DATA then CLK, settle. -/
def lazyInitEvents : List WireEvent :=
  powerEnableEvents ++ [.set .data false, .set .clk false, .wait .settle]

/-- LazyInit (R79): linked only after the settling delay. -/
def lazyInit (s : State) : State := { emitAll lazyInitEvents s with linked := true }

/-! ### The brightness multiplier and the frame -/

/-- `scale(x, s)` (R85): the exact product shifted right by 8 and cut to 8 bits, or the raw channel at the bypass sentinel 0. -/
def scale (x s : Byte) : Byte :=
  if s = 0#8 then x else BitVec.ofNat 8 ((x.toNat * s.toNat) >>> 8)

/-- The accumulator of the reference shift-and-add form after the bits `0 .. n-1` of `s`: 16 bits, never wrapping (R87). -/
def shiftAddAcc (x s : Byte) : ℕ → BitVec 16
  | 0 => 0#16
  | n + 1 => if s.getLsbD n then shiftAddAcc x s n + (x.setWidth 16 <<< n) else shiftAddAcc x s n

/-- The reference shift-and-add multiplier (R87). -/
def scaleShiftAdd (x s : Byte) : Byte :=
  if s = 0#8 then x else (shiftAddAcc x s 8).extractLsb' 8 8

/-- Frame (R80): start frame, global byte, blue, green, red, end frame, in wire order. -/
def frame (s : State) : List Byte :=
  [0x00#8, 0x00#8, 0x00#8, 0x00#8, 0xFF#8, scale s.pixelB s.bright, scale s.pixelG s.bright, scale s.pixelR s.bright, 0xFF#8]

/-! ### The serialiser -/

/-- The bits of a byte in wire order, bit 7 first (R10, R42). -/
def bitsMsbFirst (v : Byte) : List Bool :=
  [v.getLsbD 7, v.getLsbD 6, v.getLsbD 5, v.getLsbD 4, v.getLsbD 3, v.getLsbD 2, v.getLsbD 1, v.getLsbD 0]

/-- The events of one bit (R88): data, then the clock high and low, each followed by its wait. -/
def bitEvents (b : Bool) : List WireEvent :=
  [.set .data b, .wait .setup, .set .clk true, .wait .clkHigh, .set .clk false, .wait .clkLow]

/-- The events of SendByte (R88): eight bits, then the gap after the byte (R89). -/
def byteEvents (v : Byte) : List WireEvent :=
  (bitsMsbFirst v).flatMap bitEvents ++ [.wait .gap]

/-- The events of a run of bytes, in index order (R78, R80). -/
def bytesEvents (bytes : List Byte) : List WireEvent := bytes.flatMap byteEvents

/-- SendByte for each byte in turn (R78, R88). -/
def sendBytes (bytes : List Byte) (s : State) : State := emitAll (bytesEvents bytes) s

/-- Transmit (R78): lazy initialisation unless linked, then one frame of the current pixel and brightness. -/
def transmit (s : State) : State :=
  let s1 := if s.linked then s else lazyInit s
  sendBytes (frame s1) s1

/-- The events of a Transmit from a state (R78): 441, or 447 with lazy initialisation (R91). -/
def transmitEvents (s : State) : List WireEvent :=
  (if s.linked then [] else lazyInitEvents) ++ bytesEvents (frame s)

/-! ### The registers commands write -/

/-- The stored pixel (R16). -/
def storePixel (r g b : Byte) (s : State) : State :=
  { s with pixelR := r, pixelG := g, pixelB := b }

/-! ### The exception, and reset -/

/-- Taking IllegalCommand (R103, R104): the sticky record, nothing else. The block has no trap entry (R108), so nothing is saved and
control goes nowhere; it has no return from an exception either (R109). -/
def takeIllegal (w : Word) (s : State) : State :=
  { s with errw := if s.ill then s.errw else w, ill := true }

/-- What a transfer presented in a cycle of reset reads: a read completes with the reset values (R117). -/
def resetRead : Option PortAccess → Word
  | some (.read a) => portView a State.reset
  | some (.write _ _) => 0#32
  | none => 0#32

/-- Reset (R117): every field to its reset value, the sequencer to IDLE, the command and the held write dropped, a transfer of
that cycle completed without effect, the trace empty. What is outside the block stays: `now_ms`, the parameters, the inputs to
come (log 18). -/
def resetBlock (x : Option PortAccess) (s : State) : State :=
  { State.reset with rdata := resetRead x, nowMs := s.nowMs, cfg := s.cfg, inputs := s.inputs }

end Sys2Proof.Machine
end

