-- ==== Sys2Proof/Machine/Color.lean ====
section
/-!
DEFINITION. COLOR (45_color_pack.md R101).
-/

namespace Sys2Proof.Machine

/-- COLOR's register (R101). -/
def storeResult (r g b : Byte) (s : State) : State :=
  { s with result := packColor r g b }

/-- COLOR (R101): no wire event, no pixel register. -/
def execColor (r g b : Byte) (s : State) : Host.Outcome State Fault Refusal :=
  .next (storeResult r g b s)

end Sys2Proof.Machine
end

