-- ==== Sys2Proof/Machine/Cycle.lean ====
section
/-!
DEFINITION. CYCLE (44_cycle_color.md): the rate limiter, the hue wheel, the transmissions of an eligible call.
-/

namespace Sys2Proof.Machine

/-- Eligible(st, now) (R95): not armed, or `now -_32 cyc_deadline` below 2^31. `now` is `now_ms` in the accept cycle (R112). -/
def eligible (s : State) : Bool :=
  !s.cycArmed || decide ((s.nowMs - s.cycDeadline).toNat < 2 ^ 31)

/-- Wheel(p) (R97), in natural numbers: every intermediate value lies in 0 to 255, so nothing is cut off. -/
def wheel (p : Byte) : Rgb :=
  let pos := 255 - p.toNat
  if pos < 85 then
    { r := BitVec.ofNat 8 (255 - pos * 3), g := 0#8, b := BitVec.ofNat 8 (pos * 3) }
  else if pos < 170 then
    let q := pos - 85
    { r := 0#8, g := BitVec.ofNat 8 (q * 3), b := BitVec.ofNat 8 (255 - q * 3) }
  else
    let q := pos - 170
    { r := BitVec.ofNat 8 (q * 3), g := BitVec.ofNat 8 (255 - q * 3), b := 0#8 }

/-- The registers an eligible CYCLE writes (R94, R96): the deadline from its own interval, the next phase, the wheel's colour. -/
def advanceWheel (interval : Packed) (s : State) : State :=
  let c := wheel (s.phase + 1#8)
  storePixel c.r c.g c.b
    { s with cycDeadline := s.nowMs + intervalMs interval, cycArmed := true, phase := s.phase + 1#8 }

/-- The transmissions of an eligible CYCLE: two with P_CYCLE_DOUBLE_SHOW, else one (R99). -/
def cycleTransmit (s : State) : State :=
  if s.cfg.cycleDoubleShow then transmit (transmit s) else transmit s

/-- CYCLE (R94); a call that is not eligible does nothing (R100). -/
def execCycle (interval : Packed) (s : State) : Host.Outcome State Fault Refusal :=
  .next (if eligible s then cycleTransmit (advanceWheel interval s) else s)

end Sys2Proof.Machine
end

