-- ==== Sys2Proof/Machine/Pixel.lean ====
section
/-!
DEFINITION. The brightness and pixel commands (42_brightness_pixel.md): SETBRI, SETPIX, SETPIXP, CLEAR. For each, the registers it
writes in its accept cycle (20_memory.md R48 (a)) and then its whole meaning at the command level (00_scope.md R13).
-/

namespace Sys2Proof.Machine

/-- SETBRI's register: `bright <- level +_8 1` (R71). -/
def storeBright (level : Byte) (s : State) : State :=
  { s with bright := level + 1#8 }

/-- SETPIXP's registers: the packed value taken apart (R74). -/
def storePacked (packed : Packed) (s : State) : State :=
  storePixel (packedRed packed) (packedGreen packed) (packedBlue packed) s

/-- CLEAR's registers: all three channels zero (R75). -/
def clearPixel (s : State) : State :=
  storePixel 0#8 0#8 0#8 s

/-- SETBRI (R71): no wire event. -/
def execSetBri (level : Byte) (s : State) : Host.Outcome State Fault Refusal :=
  .next (storeBright level s)

/-- SETPIX (R73): store, then transmit (R76). -/
def execSetPix (r g b : Byte) (s : State) : Host.Outcome State Fault Refusal :=
  .next (transmit (storePixel r g b s))

/-- SETPIXP (R74). -/
def execSetPixP (packed : Packed) (s : State) : Host.Outcome State Fault Refusal :=
  .next (transmit (storePacked packed s))

/-- CLEAR (R75). -/
def execClear (s : State) : Host.Outcome State Fault Refusal :=
  .next (transmit (clearPixel s))

end Sys2Proof.Machine
end

