-- ==== Sys2Proof/Machine/Power.lean ====
section
/-!
DEFINITION. The power and link command, SETPWR (41_power_link.md R67 to R70).
-/

namespace Sys2Proof.Machine

/-- SETPWR (R67). -/
def execSetPwr (en : Bool) (s : State) : Host.Outcome State Fault Refusal :=
  .next (if en then powerEnable s else powerDisable s)

end Sys2Proof.Machine
end

