-- ==== Sys2Proof/Machine/Show.lean ====
section
/-!
DEFINITION. SHOW (43_show_frame.md R77).
-/

namespace Sys2Proof.Machine

/-- SHOW (R77): transmit the stored pixel. -/
def execShow (s : State) : Host.Outcome State Fault Refusal :=
  .next (transmit s)

end Sys2Proof.Machine
end

