-- ==== Sys2Proof/Machine/Dispatch.lean ====
section
/-!
DEFINITION. `exec`: one arm per command, each one direct call of its meaning, `exec_<MNEMONIC>(st, w, now)` of 00_scope.md R13.
-/

namespace Sys2Proof.Machine

/-- The whole effect of one command, at the command level (R13). -/
def exec (i : Instr) (s : State) : Host.Outcome State Fault Refusal :=
  match i with
  | .setPwr en => Sys2Proof.Machine.execSetPwr en s
  | .setBri level => Sys2Proof.Machine.execSetBri level s
  | .setPix r g b => Sys2Proof.Machine.execSetPix r g b s
  | .setPixP packed => Sys2Proof.Machine.execSetPixP packed s
  | .clear => Sys2Proof.Machine.execClear s
  | .showPixel => Sys2Proof.Machine.execShow s
  | .cycle interval => Sys2Proof.Machine.execCycle interval s
  | .color r g b => Sys2Proof.Machine.execColor r g b s

end Sys2Proof.Machine
end

