-- ==== Sys2Proof/Machine/Sequencer.lean ====
section
/-!
DEFINITION. The sequencer, event by event (10_state.md R23, R28; 20_memory.md R46, R48). A command word accepted from the port writes its
registers in the accept cycle and starts the sequencer; each tick is then one wire event, or what the sequence does after its events. `exec`
is the same command seen whole (R13); that the two agree is a statement of Certificates/Slice0/Obligations.lean.
-/

namespace Sys2Proof.Machine

/-! ### Accepting a word -/

/-- Starts a Transmit of `n` frames, lazy initialisation first unless linked (R78). -/
def startTransmit (w : Word) (n : Fin 3) (s : State) : State :=
  { s with
    busy := true
    seq := { idlePos with cmd := w, step := if s.linked then .frame else .power, framesLeft := n } }

/-- Starts SETPWR's three events (R67). -/
def startPower (w : Word) (s : State) : State :=
  { s with busy := true, seq := { idlePos with cmd := w, step := .power } }

/-- What one command does in its accept cycle: the registers of R48 (a), and `busy` if it emits wire events (R46). -/
def startCommand (i : Instr) (w : Word) (s : State) : State :=
  match i with
  | .setPwr _ => startPower w s
  | .setBri level => storeBright level s
  | .setPix r g b => startTransmit w 1 (storePixel r g b s)
  | .setPixP packed => startTransmit w 1 (storePacked packed s)
  | .clear => startTransmit w 1 (clearPixel s)
  | .showPixel => startTransmit w 1 s
  | .cycle interval =>
    if eligible s then startTransmit w (if s.cfg.cycleDoubleShow then 2 else 1) (advanceWheel interval s) else s
  | .color r g b => storeResult r g b s

/-- The accept cycle of a command word (R46): an illegal word takes its exception there (R104). -/
def accept (w : Word) (s : State) : State :=
  match decode w with
  | .ok i => startCommand i w s
  | .error _ => takeIllegal w s

/-! ### One tick -/

/-- The running command is SETPWR, so the power events are all of it (R67). -/
def seqIsSetPwr (s : State) : Bool := opField s.seq.cmd == 0x01#8

/-- The power events are those of PowerDisable: SETPWR with `en` = 0 (R67). Lazy initialisation runs PowerEnable (R79). -/
def seqPowerOff (s : State) : Bool := seqIsSetPwr s && !enField s.seq.cmd

/-- The power event at `seq_sub` (R68, R69). -/
def powerEvent (off : Bool) (sub : Fin 7) : WireEvent :=
  if sub = 0 then .pwr off
  else if sub = 1 then .mode .data (if off then .inPd else .out)
  else .mode .clk (if off then .inPd else .out)

/-- The position after a power event: the next of the three, then the clearing of `linked` for PowerDisable, DONE for PowerEnable, INIT for
lazy initialisation (R67, R69, R79). -/
def nextPowerPos (s : State) : SeqPos :=
  if s.seq.sub < 2 then { s.seq with sub := s.seq.sub + 1 }
  else if seqPowerOff s then { s.seq with sub := 3 }
  else { s.seq with step := if seqIsSetPwr s then .done else .init, sub := 0 }

/-- In POWER: one of the three events; the tick after those of PowerDisable clears `linked`, last of all, and emits nothing (R69, log 4). -/
def tickPower (s : State) : State :=
  if s.seq.sub = 3 then { s with linked := false, seq := { s.seq with step := .done, sub := 0 } }
  else { emit (powerEvent (seqPowerOff s) s.seq.sub) s with seq := nextPowerPos s }

/-- In INIT: the lines cleared, the settling delay; the tick after it is over sets `linked` and emits nothing (R79, log 5). -/
def tickInit (s : State) : State :=
  if s.seq.sub = 0 then { emit (.set .data false) s with seq := { s.seq with sub := 1 } }
  else if s.seq.sub = 1 then { emit (.set .clk false) s with seq := { s.seq with sub := 2 } }
  else if s.seq.sub = 2 then { emit (.wait .settle) s with seq := { s.seq with sub := 3 } }
  else { s with linked := true, seq := { s.seq with step := .frame, byte := 0, bit := 7, sub := 0 } }

/-- The frame event at a position (R88, R89): six per bit, the gap at `sub` = 6. -/
def frameEvent (s : State) : WireEvent :=
  if s.seq.sub = 0 then .set .data (((frame s).getD s.seq.byte 0#8).getLsbD s.seq.bit)
  else if s.seq.sub = 1 then .wait .setup
  else if s.seq.sub = 2 then .set .clk true
  else if s.seq.sub = 3 then .wait .clkHigh
  else if s.seq.sub = 4 then .set .clk false
  else if s.seq.sub = 5 then .wait .clkLow
  else .wait .gap

/-- The position after a frame event: bit 7 down to 0, then the gap, bytes 0 to 8, then the next frame or DONE (R80, R88). -/
def nextFramePos (p : SeqPos) : SeqPos :=
  if p.sub < 5 then { p with sub := p.sub + 1 }
  else if p.sub = 5 then
    if p.bit = 0 then { p with sub := 6 } else { p with bit := p.bit - 1, sub := 0 }
  else if p.byte < 8 then { p with byte := p.byte + 1, bit := 7, sub := 0 }
  else if p.framesLeft = 2 then { p with framesLeft := 1, byte := 0, bit := 7, sub := 0 }
  else { p with step := .done, framesLeft := 0, byte := 0, bit := 7, sub := 0 }

/-- In FRAME: one event of the frame. -/
def tickFrame (s : State) : State :=
  { emit (frameEvent s) s with seq := nextFramePos s.seq }

/-- In DONE the last event, its wait included, is over: `busy` falls (R23). -/
def tickDone (s : State) : State :=
  { s with busy := false, seq := idlePos }

/-- One tick of the running sequencer. `busy` = 1 at IDLE is reached by no run; it ends there (log 7). -/
def tick (s : State) : State :=
  match s.seq.step with
  | .power => tickPower s
  | .init => tickInit s
  | .frame => tickFrame s
  | .done => tickDone s
  | .idle => tickDone s

/-- The block runs on by itself: the running command's next tick; when idle, a held CMD write is accepted, with `now_ms` as it reads
then (R46); else nothing happens. -/
def advance (s : State) : State :=
  if s.busy then tick s
  else match s.held with
    | some w => accept w { s with held := none, ready := true }
    | none => s

end Sys2Proof.Machine
end

