-- ==== Sys2Proof/Machine/Port.lean ====
section
/-!
DEFINITION. The register port (20_memory.md R38 to R48) and the other things the outside does (`Input`). `present x rest s` is one step in a
state whose next input is `x`, the inputs after it being `rest`.
-/

namespace Sys2Proof.Machine

/-- A command word run at the command level (R13): the command's whole effect, or the exception of an illegal word (R104). -/
def runWord (w : Word) (s : State) : Host.Outcome State Fault Refusal :=
  match decode w with
  | .ok i => exec i s
  | .error _ => .next (takeIllegal w s)

/-- A read completes at once with the register's current value and has no side effect (R43). -/
def portRead (a : PortAddr) (s : State) : State :=
  { s with rdata := portView a s, ready := true }

/-- A write: CMD issues the word, held while busy (R44, R46); any other address completes at once and changes nothing (R44). -/
def portWrite (a : PortAddr) (d : Word) (s : State) : State :=
  if a = 0#3 then
    if s.busy then { s with held := some d, ready := false } else accept d { s with ready := true }
  else { s with ready := true }

/-- One transfer. -/
def portAccess (x : PortAccess) (s : State) : State :=
  match x with
  | .read a => portRead a s
  | .write a d => portWrite a d s

/-- A bridge access to the four bytes of one register is the whole-word transfer of that register (R41). An offset beyond the eight
registers faults (log 11); a narrow or misaligned access is refused (R41, S4, log 12). DESIGN CHOICE: an access wider than one word, which
the spec does not speak of, is refused under the same name (log 28). `count` is how many bytes the access names. -/
def bridgeAccess (offset count : ℕ) (x : PortAddr → PortAccess) (s : State) : Host.Outcome State Fault Refusal :=
  if 32 ≤ offset then .fault (.noSuchRegister offset)
  else if offset % 4 = 0 ∧ count = 4 then .next (portAccess (x (BitVec.ofNat 3 (offset / 4))) s)
  else .refused .narrowOrMisaligned

/-- A bridge write: its bytes make the word, little-endian (R41). -/
def bridgeWrite (offset : ℕ) (bytes : List Byte) (s : State) : Host.Outcome State Fault Refusal :=
  bridgeAccess offset bytes.length (fun a => .write a ((wordOfBytes bytes).getD 0#32)) s

/-- The host can issue a transfer: it has at most one outstanding, and a held write is one (R47, R51). -/
def hostFree (s : State) : Bool := s.held.isNone

/-- One step with the input `x` next. A transfer the host cannot issue yet stays next, and the block runs on (R46, R47). -/
def present (x : Input) (rest : List Input) (s : State) : Host.Outcome State Fault Refusal :=
  match x with
  | .command w =>
    if hostFree s && !s.busy then runWord w { s with inputs := rest, ready := true }
    else .next (advance (if hostFree s then { s with ready := false } else s))
  | .access a => .next (if hostFree s then portAccess a { s with inputs := rest } else advance s)
  | .waitIdle =>
    .next (if hostFree s then
      if s.busy then advance (portRead 1#3 s) else portRead 1#3 { s with inputs := rest }
    else advance s)
  | .time n => .next { s with inputs := rest, nowMs := n }
  | .date n => .next (if hostFree s then { s with inputs := rest, nowMs := n } else advance s)
  | .tick => .next (advance { s with inputs := rest })
  | .reset a => .next (resetBlock a { s with inputs := rest })
  | .bridgeRead offset count =>
    if hostFree s then bridgeAccess offset count (fun a => .read a) { s with inputs := rest } else .next (advance s)
  | .bridgeWrite offset bytes =>
    if hostFree s then bridgeWrite offset bytes { s with inputs := rest } else .next (advance s)
  | .secondHost => .refused .secondHost

/-- The state whose next step runs the word `w`: the outside presents it, and the block is idle (R119, log 2). -/
def fetchWord (w : Word) (s : State) : State :=
  { s with inputs := .command w :: s.inputs, busy := false, seq := idlePos, held := none }

end Sys2Proof.Machine
end

