-- ==== Sys2Proof/Machine/Step.lean ====
section
/-!
DEFINITION. One step of the machine. The block fetches no instructions (10_state.md R27): the outside presents its next input, and with
nothing presented the block runs on by itself.
-/

namespace Sys2Proof.Machine

/-- One step. -/
def step (s : State) : Host.Outcome State Fault Refusal :=
  match s.inputs with
  | [] => .next (advance s)
  | x :: rest => present x rest s

/-- The state whose next step runs the table's word: the host's write of a command word takes the place of a fetch (R27). -/
def State.withFetchWord (s : State) (nbits w : ℕ) : State :=
  fetchWord (BitVec.ofNat 32 (w % 2 ^ nbits)) s

end Sys2Proof.Machine
end

