-- ==== Sys2Proof/Machine/Assembler.lean ====
section
/-!
DEFINITION. Assembler and disassembler (30_encoding.md R64 to R66). Commands become the words a host writes to CMD; the host-side
pseudo-operations of R65 become what the outside does (`Input`).
-/

namespace Sys2Proof.Machine

/-! ### Words -/

/-- The word of a well-formed line, by the formulas of R64; ignored bits are written as 0, and an operand out of range is rejected. -/
def assemble (c : AsmCmd) : Option Word :=
  if c.wellFormed then
    some (match c with
      | .setPwr en => 0x01000000#32 ||| BitVec.ofNat 32 en
      | .setBri level => 0x02000000#32 ||| BitVec.ofNat 32 level
      | .setPix r g b => 0x03000000#32 ||| BitVec.ofNat 32 r <<< 16 ||| BitVec.ofNat 32 g <<< 8 ||| BitVec.ofNat 32 b
      | .setPixP packed => 0x04000000#32 ||| BitVec.ofNat 32 packed
      | .clear => 0x05000000#32
      | .showPixel => 0x06000000#32
      | .cycle interval => 0x07000000#32 ||| BitVec.ofNat 32 interval
      | .color r g b => 0x08000000#32 ||| BitVec.ofNat 32 r <<< 16 ||| BitVec.ofNat 32 g <<< 8 ||| BitVec.ofNat 32 b
      | .word imm => BitVec.ofNat 32 imm)
  else none

/-- Disassembly (R66): the decoded fields, or `.word` for an illegal opcode. -/
def disassemble (w : Word) : AsmCmd :=
  match decode w with
  | .ok i => i.toAsm
  | .error _ => .word w.toNat

/-! ### Source text -/

/-- What stands before a comment: "a comment begins with `;`" (R64). -/
def stripComment (cs : List Char) : List Char := cs.takeWhile (fun c => c != ';')

/-- White space between tokens (log 22). -/
def isBlankChar (c : Char) : Bool := c == ' ' || c == '\t' || c == '\r'

/-- The token read so far (in reverse) put before the tokens after it. -/
def endToken (cur : List Char) (toks : List (List Char)) : List (List Char) :=
  if cur.isEmpty then toks else cur.reverse :: toks

/-- Tokens of a line: a comma is a token, anything else runs to a blank or a comma. Case does not count in mnemonics and keywords (R64).
DESIGN CHOICE: nor in numbers, so the prefix may be written `0X` and the digits in either case (log 22). -/
def tokens : List Char → List Char → List (List Char)
  | [], cur => endToken cur []
  | c :: cs, cur =>
    if isBlankChar c then endToken cur (tokens cs [])
    else if c == ',' then endToken cur ([','] :: tokens cs [])
    else tokens cs (c.toUpper :: cur)

/-- The value of a digit in a base. -/
def digitValue (base : ℕ) (c : Char) : Option ℕ :=
  let v := if c.isDigit then c.toNat - '0'.toNat else if 'A' ≤ c ∧ c ≤ 'F' then c.toNat - 'A'.toNat + 10 else base
  if v < base then some v else none

/-- The value of a run of digits after the value read so far. -/
def digitsValue (base : ℕ) : List Char → ℕ → Option ℕ
  | [], acc => some acc
  | c :: cs, acc =>
    match digitValue base c with
    | some v => digitsValue base cs (acc * base + v)
    | none => none

/-- "Numbers are decimal, or hexadecimal with `0x`" (R64), the token being in upper case by now; leading zeros are allowed (log 22). -/
def parseNumber : List Char → Option ℕ
  | '0' :: 'X' :: c :: cs => digitsValue 16 (c :: cs) 0
  | c :: cs => digitsValue 10 (c :: cs) 0
  | [] => none

/-- The operand of SETPWR: `0`, `1`, `off` or `on` (R64). DESIGN CHOICE: any numeral of 0 or 1 will do, as `01` or `0x1` (log 22); another
value is out of range and rejected by `assemble`. -/
def parseEnable (t : List Char) : Option ℕ :=
  if t = "OFF".toList then some 0 else if t = "ON".toList then some 1 else parseNumber t

/-- A line with a mnemonic alone: the commands without operand, CYCLE's default interval 0, the pseudo-instructions (R64, R65). -/
def parseBare (m : List Char) : Option AsmCmd :=
  if m = "CLEAR".toList then some .clear
  else if m = "SHOW".toList then some .showPixel
  else if m = "CYCLE".toList then some (.cycle 0)
  else if m = "PWRON".toList then some (.setPwr 1)
  else if m = "PWROFF".toList then some (.setPwr 0)
  else if m = "BRIFULL".toList then some (.setBri 255)
  else if m = "BRIOFF".toList then some (.setBri 0)
  else if m = "OFF".toList then some .clear
  else none

/-- A line with one operand (R64). -/
def parseUnary (m a : List Char) : Option AsmCmd :=
  if m = "SETPWR".toList then (parseEnable a).map .setPwr
  else if m = "SETBRI".toList then (parseNumber a).map .setBri
  else if m = "SETPIXP".toList then (parseNumber a).map .setPixP
  else if m = "CYCLE".toList then (parseNumber a).map .cycle
  else if m = ".WORD".toList then (parseNumber a).map .word
  else none

/-- A line with three operands (R64). -/
def parseRgb (m r g b : List Char) : Option AsmCmd :=
  match parseNumber r, parseNumber g, parseNumber b with
  | some r, some g, some b =>
    if m = "SETPIX".toList then some (.setPix r g b)
    else if m = "COLOR".toList then some (.color r g b)
    else none
  | _, _, _ => none

/-- The command of a line's tokens (R64, R65). -/
def parseCmd : List (List Char) → Option AsmCmd
  | [m] => parseBare m
  | [m, a] => parseUnary m a
  | [m, r, c1, g, c2, b] => if c1 = [','] ∧ c2 = [','] then parseRgb m r g b else none
  | _ => none

/-- The word address of a register name (R39, R65). -/
def registerAddr (t : List Char) : Option PortAddr :=
  if t = "CMD".toList then some 0#3
  else if t = "STATUS".toList then some 1#3
  else if t = "RESULT".toList then some 2#3
  else if t = "PIXEL".toList then some 3#3
  else if t = "BRIGHT".toList then some 4#3
  else if t = "PHASE".toList then some 5#3
  else if t = "CYCDL".toList then some 6#3
  else if t = "ERRW".toList then some 7#3
  else none

/-- The tokens of one operation: a host pseudo-operation (R65), or a command written with `MemWrite(0, 4, w)` (R64). DESIGN CHOICE: that
write is seen at the command level (R13), whole in one step; `eventLevel` is the same write event by event (log 29). -/
def parseOp (toks : List (List Char)) : Option (List Input) :=
  match toks with
  | [] => some []
  | [m] =>
    if m = "WAITIDLE".toList then some [.waitIdle]
    else ((parseBare m).bind assemble).map (fun w => [.command w])
  | [m, a] =>
    if m = "RD".toList then (registerAddr a).map (fun x => [.access (.read x)])
    else ((parseUnary m a).bind assemble).map (fun w => [.command w])
  | _ => ((parseCmd toks).bind assemble).map (fun w => [.command w])

/-- The tokens of a line, with the annotation `@t=<n>` before the operation it dates (R65, log 22). -/
def parseLine : List (List Char) → Option (List Input)
  | ('@' :: 'T' :: '=' :: n) :: rest =>
    match parseNumber n with
    | some v => if v < 2 ^ 32 then (parseOp rest).map (fun ops => .date (BitVec.ofNat 32 v) :: ops) else none
    | none => none
  | toks => parseOp toks

/-- One line of source; none where the assembler rejects it. -/
def assembleLine (cs : List Char) : Option (List Input) :=
  parseLine (tokens (stripComment cs) [])

/-- The lines of a text, the line being read in reverse. -/
def textLines : List Char → List Char → List (List Char)
  | [], cur => [cur.reverse]
  | c :: cs, cur => if c == '\n' then cur.reverse :: textLines cs [] else textLines cs (c :: cur)

/-- The inputs of a run of lines, each line's after those of the lines before it. -/
def assembleLines : List (List Char) → Option (List Input)
  | [] => some []
  | l :: ls =>
    match assembleLine l, assembleLines ls with
    | some ops, some more => some (ops ++ more)
    | _, _ => none

/-- A source text, one command per line (R64). -/
def assembleText (text : List Char) : Option (List Input) := assembleLines (textLines text [])

/-- The same input event by event: a command word becomes the CMD write whose wire events follow one a tick, so that a read after it can see
an intermediate point (R48 (b), log 29). A date keeps to the command it stands before: it waits while an earlier write is held (R65). -/
def eventLevel : Input → Input
  | .command w => .access (.write 0#3 w)
  | x => x

/-! ### Printing -/

/-- A number in decimal. -/
def decimal (n : ℕ) : List Char := Nat.toDigits 10 n

/-- The lowest `n` hexadecimal digits of a number. -/
def hexDigits : ℕ → ℕ → List Char
  | 0, _ => []
  | n + 1, v => hexDigits n (v / 16) ++ [(Nat.digitChar (v % 16)).toUpper]

/-- Three operands, each after a blank. -/
def rgbText (r g b : ℕ) : List Char := ' ' :: decimal r ++ ", ".toList ++ decimal g ++ ", ".toList ++ decimal b

/-- The text of a command (R66): the mnemonic with its fields in decimal (log 22), or `.word 0x` and eight digits. -/
def render : AsmCmd → List Char
  | .setPwr en => "SETPWR ".toList ++ decimal en
  | .setBri level => "SETBRI ".toList ++ decimal level
  | .setPix r g b => "SETPIX".toList ++ rgbText r g b
  | .setPixP packed => "SETPIXP ".toList ++ decimal packed
  | .clear => "CLEAR".toList
  | .showPixel => "SHOW".toList
  | .cycle interval => "CYCLE ".toList ++ decimal interval
  | .color r g b => "COLOR".toList ++ rgbText r g b
  | .word imm => ".word 0x".toList ++ hexDigits 8 imm

end Sys2Proof.Machine
end

