-- ==== Sys2Proof/Machine/Wire.lean ====
section
/-!
DEFINITION. What is seen on the wire: the bits the LED samples (43_show_frame.md R92), the least time a trace takes
(70_reset_and_hazards.md R127), and how many frames a trace holds (10_state.md R36). Observations of the block's events, not state; nothing here says what
the LED displays (R93).
-/

namespace Sys2Proof.Machine

/-- The bits sampled along a list of events from a line state: `line(DATA)` at each 0-to-1 transition of `line(CLK)` (R92). That the
LED samples on the rising edge the spec marks as general knowledge (G3, log 16). -/
def ledSamples (l : Lines) : List WireEvent → List Bool
  | [] => []
  | e :: es =>
    let l' := applyEvent l e
    if !lineClk l && lineClk l' then lineData l' :: ledSamples l' es else ledSamples l' es

/-- The least time one event takes before the next, in cycles of `clk` (R9, R90). -/
def eventCycles : WireEvent → ℕ
  | .pwr _ => 0
  | .mode _ _ => 0
  | .set _ _ => 0
  | .wait t => t.cycles

/-- The least duration of a list of events (R127). -/
def minDuration : List WireEvent → ℕ
  | [] => 0
  | e :: es => eventCycles e + minDuration es

/-- How many bytes a trace has sent whole: one `Wait(T_GAP)` after every byte (R89). -/
def bytesSent (es : List WireEvent) : ℕ := es.count (.wait .gap)

/-- How many frames a trace has sent whole (R80). -/
def framesSent (es : List WireEvent) : ℕ := bytesSent es / frameBytes

end Sys2Proof.Machine
end

