-- ==== Sys2Proof/Safety.lean ====
section
/-!
DEFINITION. The terms the claims use: idle and waiting states, the state a Transmit leaves, and the invariant of 10_state.md R36,
strengthened to the points inside a command so that every step of the machine keeps it.
-/

namespace Sys2Proof.Machine

/-- Between commands: not busy, the sequencer at IDLE (R28), no write held. -/
def Idle (s : State) : Prop := s.busy = false ∧ s.seq = idlePos ∧ s.held = none

/-- A transfer of the host, at either level, or a date of its program (R65): what waits while a CMD write of the host is held (R47, R51). -/
def IsTransfer (x : Input) : Prop :=
  (∃ w, x = .command w) ∨ (∃ a, x = .access a) ∨ x = .waitIdle ∨ (∃ n, x = .date n) ∨ (∃ o n, x = .bridgeRead o n) ∨ ∃ o bs, x = .bridgeWrite o bs

/-- A write of the host seen event by event. -/
def IsEventLevelWrite (x : Input) : Prop := (∃ a d, x = .access (.write a d)) ∨ ∃ o bs, x = .bridgeWrite o bs

/-- The next input is a reset (R117). -/
def ResetNext (s : State) : Prop := ∃ x, s.inputs.head? = some (.reset x)

/-- The lines are up: power asserted, both signal lines outputs (R18, R36). -/
def LinesUp (l : Lines) : Prop := l.pwrN = false ∧ l.dataMode = .out ∧ l.clkMode = .out

/-- The line state after a Transmit (R79, R91): lazy initialisation brings the lines up; the last bit sent is the 1 of the end frame. -/
def linesAfterTransmit (s : State) : Lines :=
  { pwrN := if s.linked then s.lines.pwrN else false
    dataMode := if s.linked then s.lines.dataMode else .out
    clkMode := if s.linked then s.lines.clkMode else .out
    dataLat := true
    clkLat := false }

/-- The state after a Transmit: linked, the lines as R79 and R91 say, the events added to the trace, all else unchanged. -/
def afterTransmit (s : State) : State :=
  { s with linked := true, lines := linesAfterTransmit s, trace := s.trace ++ transmitEvents s }

/-- Inside PowerDisable: one of its events at least is out, and `linked <- 0`, which R69 puts last, is still to come (log 4). -/
def Unlinking (s : State) : Prop := s.seq.step = .power ∧ seqPowerOff s = true ∧ s.seq.sub ≠ 0

/-- (I1), inside a command too: linked implies the lines are up (R36), but inside PowerDisable (R69, R48 (b), log 4). -/
def LinkInv (s : State) : Prop := s.linked = true → ¬Unlinking s → LinesUp s.lines

/-- `busy` is 1 exactly while the sequencer holds a position (R23, R28). -/
def BusyInv (s : State) : Prop :=
  (s.busy = true ↔ s.seq.step ≠ .idle) ∧ (s.busy = false → s.seq = idlePos)

/-- The positions a command passes through, with what its events have done so far (R68, R69, R79, R88). -/
def SeqInv (s : State) : Prop :=
  match s.seq.step with
  | .idle => True
  | .power =>
    (s.seq.sub ≤ 2 ∨ (s.seq.sub = 3 ∧ seqPowerOff s = true))
      ∧ (seqPowerOff s = true → (1 ≤ s.seq.sub → s.lines.pwrN = true) ∧ (2 ≤ s.seq.sub → s.lines.dataMode = .inPd)
          ∧ (3 ≤ s.seq.sub → s.lines.clkMode = .inPd))
      ∧ (seqPowerOff s = false → (1 ≤ s.seq.sub → s.lines.pwrN = false) ∧ (2 ≤ s.seq.sub → s.lines.dataMode = .out))
      ∧ (seqIsSetPwr s = false → s.linked = false ∧ 1 ≤ s.seq.framesLeft)
  | .init =>
    s.seq.sub ≤ 3 ∧ s.linked = false ∧ LinesUp s.lines ∧ 1 ≤ s.seq.framesLeft
      ∧ (1 ≤ s.seq.sub → s.lines.dataLat = false)
  | .frame => s.linked = true ∧ 1 ≤ s.seq.framesLeft ∧ (s.seq.sub = 6 → s.seq.bit = 0)
  | .done => True

/-- (I2) while a command may be running: `clk_lat` is 1 only between the two clock events of a bit (R88). -/
def ClockInv (s : State) : Prop :=
  s.lines.clkLat = true ↔ (s.seq.step = .frame ∧ (s.seq.sub = 3 ∨ s.seq.sub = 4))

/-- (I3) while a command may be running: outside frames whole frames have been sent, `data_lat` is 1 exactly if there was one, and
there was one if the block is linked; inside, the bytes sent fit the position, and in the end frame's byte 0xFF the latch is 1 from
its first bit on. -/
def DataInv (s : State) : Prop :=
  match s.seq.step with
  | .frame =>
    bytesSent s.trace % frameBytes = s.seq.byte.val
      ∧ (s.seq.byte = 8 → (s.seq.sub ≠ 0 ∨ s.seq.bit ≠ 7) → s.lines.dataLat = true)
  | .init => bytesSent s.trace % frameBytes = 0
  | _ =>
    bytesSent s.trace % frameBytes = 0
      ∧ (s.lines.dataLat = true ↔ 1 ≤ framesSent s.trace)
      ∧ (s.linked = true → 1 ≤ framesSent s.trace)

/-- (I4) no illegal word seen, so none recorded (R36). -/
def ErrInv (s : State) : Prop := s.ill = false → s.errw = 0#32

/-- The line state is what the events since reset have made of the reset levels (R90, R117). -/
def ReplayInv (s : State) : Prop := s.lines = replay s.trace resetLines

/-- A held write is a transfer that has not completed (R46). -/
def HeldInv (s : State) : Prop := s.held ≠ none → s.ready = false

/-- The invariant of the machine. -/
structure Inv (s : State) : Prop where
  link : LinkInv s
  busy : BusyInv s
  pos : SeqInv s
  clock : ClockInv s
  data : DataInv s
  err : ErrInv s
  replayed : ReplayInv s
  heldWrite : HeldInv s

end Sys2Proof.Machine
end

