-- ==== Sys2Proof/Certificates/Slice0/Obligations.lean ====
section
/-!
DEFINITION. The statements for the provers, in the order of the spec's files. Each docstring names the rule of spec/ it formalises, or the
rules and the log entries it rests on. A level is a Bool: true is 1.
-/

open Sys2Proof Sys2Proof.Machine

/-! ### Encoding (30_encoding.md) -/

/-- Every command's word decodes to that command, whatever its operands (R54 to R59). -/
def Obligations.DecodeOfEncodeIsTheCommand : Prop :=
  ∀ i : Instr, decode (encode i) = .ok i

/-- Encoding a decoded word clears its ignored bits and keeps every other bit (R56, R58, R64). -/
def Obligations.EncodeOfDecodeClearsIgnoredBits : Prop :=
  ∀ (w : Word) (i : Instr), decode w = .ok i → encode i = w &&& ~~~ignoredMask i

/-- The decoder's table, R63: the opcodes 0x01 to 0x08 with their fields, and every other word illegal. -/
def Obligations.DecoderMatchesTheOpcodeMap : Prop :=
  ∀ w : Word,
    (w.extractLsb' 24 8 = 0x01#8 → decode w = .ok (.setPwr (w.getLsbD 0)))
      ∧ (w.extractLsb' 24 8 = 0x02#8 → decode w = .ok (.setBri (w.extractLsb' 0 8)))
      ∧ (w.extractLsb' 24 8 = 0x03#8 →
          decode w = .ok (.setPix (w.extractLsb' 16 8) (w.extractLsb' 8 8) (w.extractLsb' 0 8)))
      ∧ (w.extractLsb' 24 8 = 0x04#8 → decode w = .ok (.setPixP (w.extractLsb' 0 24)))
      ∧ (w.extractLsb' 24 8 = 0x05#8 → decode w = .ok .clear)
      ∧ (w.extractLsb' 24 8 = 0x06#8 → decode w = .ok .showPixel)
      ∧ (w.extractLsb' 24 8 = 0x07#8 → decode w = .ok (.cycle (w.extractLsb' 0 24)))
      ∧ (w.extractLsb' 24 8 = 0x08#8 →
          decode w = .ok (.color (w.extractLsb' 16 8) (w.extractLsb' 8 8) (w.extractLsb' 0 8)))
      ∧ (w.extractLsb' 24 8 = 0x00#8 ∨ 9 ≤ (w.extractLsb' 24 8).toNat → decode w = .error (.illegalCommand w))

/-- Ignored bits, R58: a word that differs from a command's word only in ignored bits is the same command and has the same effect, and
event by event the state after its accept cycle and after any number of ticks is the same; only the sequencer's hidden copy of the word
keeps those bits. -/
def Obligations.IgnoredBitsHaveNoEffect : Prop :=
  ∀ (w w' : Word) (i : Instr), decode w = .ok i →
    (∀ k, (ignoredMask i).getLsbD k = false → w'.getLsbD k = w.getLsbD k) →
    decode w' = .ok i
      ∧ ∀ s : State, runWord w' s = runWord w s
        ∧ ∀ n : ℕ, tick^[n] (accept w' s)
          = { tick^[n] (accept w s) with
              seq := { (tick^[n] (accept w s)).seq with cmd := (tick^[n] (accept w' s)).seq.cmd } }

/-- Illegal opcodes, R60, and IllegalCommand, R104: 0x00 and 0x09 to 0xFF, 248 values; the word is recorded if it is the first, at the
command level and in the accept cycle alike, and nothing else changes. -/
def Obligations.IllegalWordIsRecordedAndNothingElse : Prop :=
  ((List.range 256).countP (fun op => op == 0 || 9 ≤ op) = 248)
    ∧ ∀ w : Word,
      (((opField w).toNat = 0 ∨ 9 ≤ (opField w).toNat) →
        ∀ s : State,
          runWord w s = .next { s with errw := if s.ill then s.errw else w, ill := true }
            ∧ accept w s = { s with errw := if s.ill then s.errw else w, ill := true })
      ∧ (¬((opField w).toNat = 0 ∨ 9 ≤ (opField w).toNat) → ∃ i, decode w = .ok i)

/-- Words written out from the opcode map of R59 decode to their commands (95_test_vectors.md 2.1). -/
def Obligations.WrittenWordsDecode : Prop :=
  decode 0x01000001#32 = .ok (.setPwr true)
    ∧ decode 0x01FFFFFE#32 = .ok (.setPwr false)
    ∧ decode 0x0212345F#32 = .ok (.setBri 95#8)
    ∧ decode 0x03FF0000#32 = .ok (.setPix 255#8 0#8 0#8)
    ∧ decode 0x04123456#32 = .ok (.setPixP 0x123456#24)
    ∧ decode 0x05FFFFFF#32 = .ok .clear
    ∧ decode 0x06000000#32 = .ok .showPixel
    ∧ decode 0x07FFFFFF#32 = .ok (.cycle 16777215#24)
    ∧ decode 0x08010203#32 = .ok (.color 1#8 2#8 3#8)
    ∧ decode 0x00000000#32 = .error (.illegalCommand 0x00000000#32)
    ∧ decode 0x80000006#32 = .error (.illegalCommand 0x80000006#32)

/-- The assembler's word for a well-formed command, by the formulas of R64, is the encoding of R54; an operand out of range is
rejected. -/
def Obligations.AssemblerWritesTheEncoding : Prop :=
  (∀ (c : AsmCmd) (i : Instr), c.toInstr = some i → assemble c = some (encode i))
    ∧ ∀ c : AsmCmd, c.wellFormed = false → assemble c = none

/-- R66, last sentence: disassembly followed by assembly reproduces every word whose ignored bits are 0, the illegal words too. -/
def Obligations.DisassembleThenAssembleReproduces : Prop :=
  ∀ w : Word, (∀ i, decode w = .ok i → w &&& ignoredMask i = 0#32) → assemble (disassemble w) = some w

/-! ### The port (10_state.md, 20_memory.md) -/

/-- STATUS, R29: each bit, the reserved bits 0, the reset value 0, writes ignored. -/
def Obligations.StatusShowsEachBit : Prop :=
  (∀ s : State,
    (portView 1#3 s).getLsbD 0 = s.busy
      ∧ (portView 1#3 s).getLsbD 1 = s.linked
      ∧ (portView 1#3 s).getLsbD 2 = !s.lines.pwrN
      ∧ (portView 1#3 s).getLsbD 3 = s.ill
      ∧ (portView 1#3 s).getLsbD 4 = s.cycArmed
      ∧ (portView 1#3 s).getLsbD 5 = (s.lines.dataMode == .out)
      ∧ (portView 1#3 s).getLsbD 6 = (s.lines.clkMode == .out)
      ∧ (portView 1#3 s).getLsbD 7 = s.lines.dataLat
      ∧ (portView 1#3 s).getLsbD 8 = s.lines.clkLat
      ∧ ∀ k, 9 ≤ k → (portView 1#3 s).getLsbD k = false)
    ∧ portView 1#3 State.reset = 0#32
    ∧ ∀ (d : Word) (s : State), portWrite 1#3 d s = { s with ready := true }

/-- PIXEL, BRIGHT, PHASE, CYCDL and RESULT, R30 to R34, and what ERRW reads: what each reads, its reset value 0, that it is read-only, and
PIXEL after SETPIXP. -/
def Obligations.ReadbackRegistersShowState : Prop :=
  (∀ s : State,
    portView 3#3 s = 0x00#8 ++ s.pixelR ++ s.pixelG ++ s.pixelB
      ∧ portView 4#3 s = s.bright.setWidth 32
      ∧ portView 5#3 s = s.phase.setWidth 32
      ∧ portView 6#3 s = s.cycDeadline
      ∧ portView 2#3 s = s.result.setWidth 32
      ∧ portView 7#3 s = s.errw)
    ∧ (∀ a : PortAddr, portView a State.reset = 0#32)
    ∧ (∀ (a : PortAddr) (d : Word) (s : State), a ≠ 0#3 → portWrite a d s = { s with ready := true })
    ∧ ∀ (v : Packed) (s : State), ∃ t, exec (.setPixP v) s = .next t ∧ portView 3#3 t = v.setWidth 32

/-- The pins and the line levels (R24 to R26, R38): the power pin is `pwr_n`; a signal line in OUT is driven at its latch and not pulled
down; in IN_PD it is pulled down, not driven, and reads 0 (log 15) whatever the latch holds. -/
def Obligations.PinsFollowTheLineState : Prop :=
  ∀ s : State,
    (pins s).pwrNO = s.lines.pwrN ∧ (pins s).dataO = s.lines.dataLat ∧ (pins s).clkO = s.lines.clkLat
      ∧ (s.lines.dataMode = .out → (pins s).dataOe = true ∧ (pins s).dataPd = false ∧ lineData s.lines = s.lines.dataLat)
      ∧ (s.lines.dataMode = .inPd → (pins s).dataOe = false ∧ (pins s).dataPd = true ∧ lineData s.lines = false)
      ∧ (s.lines.clkMode = .out → (pins s).clkOe = true ∧ (pins s).clkPd = false ∧ lineClk s.lines = s.lines.clkLat)
      ∧ (s.lines.clkMode = .inPd → (pins s).clkOe = false ∧ (pins s).clkPd = true ∧ lineClk s.lines = false)
      ∧ (pins s).rdata = s.rdata ∧ (pins s).ready = s.ready

/-- Reads, R43: completed at once whatever `busy` is, with the current value, nothing else changed; CMD reads 0; a second read of the
same address, with nothing between, gives the same value. That this holds on a busy block too, R43's exception never showing between two
reads in a row, is the model's choice: a read step moves no wire event (log 21). (The host is free to read: it has no held write
outstanding, R47.) -/
def Obligations.ReadsHaveNoSideEffect : Prop :=
  (∀ s : State, portView 0#3 s = 0#32)
    ∧ ∀ (s : State) (a : PortAddr) (rest : List Input), s.held = none →
      (s.inputs = .access (.read a) :: rest →
        step s = .next { s with inputs := rest, rdata := portView a s, ready := true })
      ∧ (s.inputs = .access (.read a) :: .access (.read a) :: rest →
        Host.Core.run core 2 s = .next { s with inputs := rest, rdata := portView a s, ready := true })

/-- A write to any address but CMD completes at once and changes nothing (R44), and two SHOW words send two frames (R44). -/
def Obligations.OnlyCmdWritesHaveAnEffect : Prop :=
  ∀ (s : State) (rest : List Input),
    (∀ (a : PortAddr) (d : Word), s.held = none → a ≠ 0#3 → s.inputs = .access (.write a d) :: rest →
      step s = .next { s with inputs := rest, ready := true })
    ∧ (Idle s → s.inputs = .command 0x06000000#32 :: .command 0x06000000#32 :: rest →
      ∃ t, Host.Core.run core 2 s = .next t
        ∧ t.trace = s.trace ++ (if s.linked then [] else lazyInitEvents) ++ bytesEvents (frame s) ++ bytesEvents (frame s))

/-- A CMD write while busy is held and nothing is lost (R46, R51, R121): it takes the write out of the host's hands with `ready` = 0, each
tick of the running command keeps it, a change of the time keeps it, and no later transfer of any kind, nor a date `@t=<n>` of the host's
program (R65), is taken before it: each waits, while busy, for the running command's next event, and once the command is over the held word
is accepted first, with `now_ms` as it reads then, whatever the host does next. So a date, which sets `now_ms` with no write held, stands
until the command it was written before is accepted, for no tick changes `now_ms`. A command presented at the command level waits in the
same way (the model's choice, log 25); that the host issues nothing while its write is held is log 19, and so is that its dates wait. -/
def Obligations.CmdWriteWhileBusyIsHeld : Prop :=
  ∀ (s : State) (w : Word) (rest : List Input),
    (s.busy = true → s.held = none → s.inputs = .access (.write 0#3 w) :: rest →
      step s = .next { s with inputs := rest, held := some w, ready := false })
    ∧ (s.busy = true → s.held = none → s.inputs = .command w :: rest → step s = .next (tick { s with ready := false }))
    ∧ (tick s).held = s.held
    ∧ (tick s).inputs = s.inputs
    ∧ (tick s).nowMs = s.nowMs
    ∧ (s.held = none → ∀ n, s.inputs = .date n :: rest → step s = .next { s with inputs := rest, nowMs := n })
    ∧ (s.busy = true → s.held = some w → ∀ x, IsTransfer x → s.inputs = x :: rest → step s = .next (tick s))
    ∧ (s.held = some w → ∀ n, s.inputs = .time n :: rest → step s = .next { s with inputs := rest, nowMs := n })
    ∧ (s.busy = false → s.held = some w →
      (s.inputs = [] → step s = .next (accept w { s with held := none, ready := true }))
        ∧ (s.inputs = .tick :: rest → step s = .next (accept w { s with inputs := rest, held := none, ready := true }))
        ∧ ∀ x, IsTransfer x → s.inputs = x :: rest → step s = .next (accept w { s with held := none, ready := true }))

/-- The accept cycle (R46, R48 (a)): the registers take their final values at once, `busy` rises exactly if the command emits wire
events, and SETBRI, COLOR, an ineligible CYCLE emit none. -/
def Obligations.RegistersAreFinalInTheAcceptCycle : Prop :=
  ∀ (w : Word) (i : Instr) (s : State), decode w = .ok i → s.busy = false →
    ∃ t, exec i s = .next t
      ∧ (accept w s).pixelR = t.pixelR ∧ (accept w s).pixelG = t.pixelG ∧ (accept w s).pixelB = t.pixelB
      ∧ (accept w s).bright = t.bright ∧ (accept w s).phase = t.phase
      ∧ (accept w s).cycDeadline = t.cycDeadline ∧ (accept w s).cycArmed = t.cycArmed
      ∧ (accept w s).result = t.result ∧ (accept w s).ill = t.ill ∧ (accept w s).errw = t.errw
      ∧ ((accept w s).busy = true ↔ t.trace ≠ s.trace)
      ∧ (t.trace = s.trace ↔
          (∃ l, i = .setBri l) ∨ (∃ r g b, i = .color r g b) ∨ ((∃ iv, i = .cycle iv) ∧ eligible s = false))

/-- The bridge's byte order, R41, and what it refuses: byte `k` is bits `[8k+7 : 8k]`; an access to the four bytes of a register is that
register's transfer; any other access within the eight registers is refused, one wider than a word by the model's choice (log 28); beyond
them the model faults (log 11). -/
def Obligations.BridgeIsLittleEndianAndWholeWord : Prop :=
  (∀ w : Word,
    wordBytes w = [w.extractLsb' 0 8, w.extractLsb' 8 8, w.extractLsb' 16 8, w.extractLsb' 24 8]
      ∧ wordOfBytes (wordBytes w) = some w)
    ∧ (∀ (s : State) (rest : List Input) (a : ℕ), a < 8 → s.held = none →
      (s.inputs = .bridgeRead (4 * a) 4 :: rest →
        step s = step { s with inputs := .access (.read (BitVec.ofNat 3 a)) :: rest })
      ∧ ∀ d : Word, s.inputs = .bridgeWrite (4 * a) (wordBytes d) :: rest →
        step s = step { s with inputs := .access (.write (BitVec.ofNat 3 a) d) :: rest })
    ∧ (∀ (s : State) (rest : List Input) (offset count : ℕ), offset < 32 → s.held = none →
      ¬(offset % 4 = 0 ∧ count = 4) → s.inputs = .bridgeRead offset count :: rest → step s = .refused .narrowOrMisaligned)
    ∧ (∀ (s : State) (rest : List Input) (offset : ℕ) (bytes : List Byte), offset < 32 → s.held = none →
      ¬(offset % 4 = 0 ∧ bytes.length = 4) → s.inputs = .bridgeWrite offset bytes :: rest → step s = .refused .narrowOrMisaligned)
    ∧ ∀ (s : State) (rest : List Input) (offset : ℕ), 32 ≤ offset → s.held = none →
      (∀ count, s.inputs = .bridgeRead offset count :: rest → step s = .fault (.noSuchRegister offset))
        ∧ ∀ bytes, s.inputs = .bridgeWrite offset bytes :: rest → step s = .fault (.noSuchRegister offset)

/-- A transfer of a second host is refused (R115, U1). -/
def Obligations.SecondHostIsRefused : Prop :=
  ∀ (s : State) (rest : List Input), s.inputs = .secondHost :: rest → step s = .refused .secondHost

/-- A step runs the decoded command (R13, R27, R46): with the block idle and a word presented, the step is `exec` of the word's command,
the word taken from the inputs and the transfer completed; an illegal word takes its exception. The last clause, for the word that
`withFetchWord` presents, rests on the model's choice (log 2): that entry makes the block idle first, dropping a running command and a
held write. -/
def Obligations.StepRunsTheDecodedCommand : Prop :=
  ∀ (s : State) (w : Word) (rest : List Input),
    (Idle s → s.inputs = .command w :: rest →
      (∀ i, decode w = .ok i → step s = exec i { s with inputs := rest, ready := true })
      ∧ (∀ e, decode w = .error e → step s = .next (takeIllegal w { s with inputs := rest, ready := true })))
    ∧ ∀ i, decode w = .ok i →
      step (s.withFetchWord 32 w.toNat) = exec i { s with busy := false, seq := idlePos, held := none, ready := true }

/-! ### Power and link (41_power_link.md) -/

/-- SETPWR 1 is PowerEnable, R68: the three events in order, no wait, the lines as they say, all else unchanged. -/
def Obligations.SetPwrOnRunsPowerEnable : Prop :=
  ∀ s : State, exec (.setPwr true) s = .next
    { s with
      lines := { s.lines with pwrN := false, dataMode := .out, clkMode := .out }
      trace := s.trace ++ [.pwr false, .mode .data .out, .mode .clk .out] }

/-- SETPWR 0 is PowerDisable (R69): the three events in order, `linked` cleared, the latches kept, all else unchanged; and both line levels
are 0, which rests on the spec's general knowledge that the pull-down wins (R26, G1, log 15). -/
def Obligations.SetPwrOffRunsPowerDisable : Prop :=
  ∀ s : State, ∃ t, exec (.setPwr false) s = .next t
    ∧ t = { s with
        linked := false
        lines := { s.lines with pwrN := true, dataMode := .inPd, clkMode := .inPd }
        trace := s.trace ++ [.pwr true, .mode .data .inPd, .mode .clk .inPd] }
    ∧ lineData t.lines = false ∧ lineClk t.lines = false

/-- Link teardown, R70: after SETPWR 0 the next Transmit runs lazy initialisation again and then its frame; SETPWR 1 leaves `linked`
as it was. -/
def Obligations.PowerOffMakesTheNextTransmitLazy : Prop :=
  ∀ s : State,
    (∃ t, exec (.setPwr false) s = .next t ∧ t.linked = false
      ∧ (transmit t).trace = t.trace ++
          [.pwr false, .mode .data .out, .mode .clk .out, .set .data false, .set .clk false, .wait .settle]
          ++ bytesEvents (frame t)
      ∧ (transmit t).linked = true)
    ∧ ∃ t, exec (.setPwr true) s = .next t ∧ t.linked = s.linked

/-! ### Brightness and pixel (42_brightness_pixel.md) -/

/-- The stored-brightness law, R72: SETBRI L stores (L + 1) mod 256 and changes nothing else; 0 is stored exactly when L = 255; the
reverse map is (stored - 1) mod 256. -/
def Obligations.SetBriStoresLevelPlusOne : Prop :=
  ∀ (level : Byte) (s : State), ∃ t, exec (.setBri level) s = .next t
    ∧ t = { s with bright := t.bright }
    ∧ t.bright.toNat = (level.toNat + 1) % 256
    ∧ (t.bright.toNat = 0 ↔ level.toNat = 255)
    ∧ level.toNat = (t.bright.toNat + 255) % 256

/-- SETPIX, SETPIXP, CLEAR and SHOW (R73, R74, R75, R77): each completes, from every state, in the state that stores its colour and then
transmits (R78, R79, R91); every register not named there is unchanged. -/
def Obligations.PixelCommandsStoreAndTransmit : Prop :=
  ∀ (s : State) (r g b : Byte) (packed : Packed),
    exec (.setPix r g b) s = .next (afterTransmit { s with pixelR := r, pixelG := g, pixelB := b })
      ∧ exec (.setPixP packed) s = .next (afterTransmit
          { s with pixelR := packed.extractLsb' 16 8, pixelG := packed.extractLsb' 8 8, pixelB := packed.extractLsb' 0 8 })
      ∧ exec .clear s = .next (afterTransmit { s with pixelR := 0#8, pixelG := 0#8, pixelB := 0#8 })
      ∧ exec .showPixel s = .next (afterTransmit s)

/-- Store before transmit, R76: the frame of SETPIX, SETPIXP and CLEAR carries the new colour, and none of the three changes `bright`,
`phase`, `cyc_deadline` or `result`. -/
def Obligations.FrameCarriesTheNewColour : Prop :=
  ∀ (s : State) (i : Instr) (r g b : Byte),
    (i = .setPix r g b ∨ i = .setPixP (r ++ g ++ b) ∨ (i = .clear ∧ r = 0#8 ∧ g = 0#8 ∧ b = 0#8)) →
    ∃ t, exec i s = .next t
      ∧ t.trace = s.trace ++ (if s.linked then [] else lazyInitEvents)
          ++ bytesEvents [0x00#8, 0x00#8, 0x00#8, 0x00#8, 0xFF#8, scale b s.bright, scale g s.bright, scale r s.bright, 0xFF#8]
      ∧ t.pixelR = r ∧ t.pixelG = g ∧ t.pixelB = b
      ∧ t.bright = s.bright ∧ t.phase = s.phase ∧ t.cycDeadline = s.cycDeadline ∧ t.result = s.result

/-! ### Show, frame, multiplier, serialiser (43_show_frame.md) -/

/-- Lazy initialisation, R79: power, DATA cleared, CLK cleared, the settling wait, in this order; linked only after it. Event by event, of a
Transmit that starts unlinked: after each of the first six ticks that many of its events are out and `linked` is still 0 (so a STATUS read
then shows LINKED = 0, R29); the seventh tick, the wait being over, links and emits nothing (a tick of its own by log 5). The same step by
step from any state in INIT, and in POWER and INIT of any state that meets the invariant LINKED reads 0. -/
def Obligations.LazyInitPowersClearsSettlesLinks : Prop :=
  (∀ s : State, lazyInit s =
    { s with
      linked := true
      lines := { pwrN := false, dataMode := .out, clkMode := .out, dataLat := false, clkLat := false }
      trace := s.trace ++
        [.pwr false, .mode .data .out, .mode .clk .out, .set .data false, .set .clk false, .wait .settle] })
    ∧ (∀ (w : Word) (frames : Fin 3) (s : State), opField w ≠ 0x01#8 → s.linked = false →
      (∀ n, n ≤ 6 →
        (tick^[n] (startTransmit w frames s)).trace = s.trace ++ lazyInitEvents.take n
          ∧ (portView 1#3 (tick^[n] (startTransmit w frames s))).getLsbD 1 = false)
      ∧ (tick^[7] (startTransmit w frames s)).trace = s.trace ++ lazyInitEvents
      ∧ (tick^[7] (startTransmit w frames s)).linked = true)
    ∧ (∀ s : State, s.seq.step = .init →
      (s.seq.sub ≤ 2 → (tick s).linked = s.linked
        ∧ (tick s).trace = s.trace ++ [[.set .data false, .set .clk false, .wait .settle].getD s.seq.sub.val (.wait .settle)])
      ∧ (s.seq.sub = 3 → tick s = { s with linked := true, seq := { s.seq with step := .frame, byte := 0, bit := 7, sub := 0 } }))
    ∧ ∀ s : State, Inv s → s.seq.step = .init ∨ (s.seq.step = .power ∧ opField s.seq.cmd ≠ 0x01#8) →
      (portView 1#3 s).getLsbD 1 = false

/-- The frame, R80: nine bytes in index order, bytes 4 to 7 the LED word, 72 bits on the wire. -/
def Obligations.FrameIsNineBytesInWireOrder : Prop :=
  ∀ s : State,
    frame s = [0x00#8, 0x00#8, 0x00#8, 0x00#8, 0xFF#8,
        scale s.pixelB s.bright, scale s.pixelG s.bright, scale s.pixelR s.bright, 0xFF#8]
      ∧ (frame s).length = 9
      ∧ ((frame s).drop 4).take 4 = [0xFF#8, scale s.pixelB s.bright, scale s.pixelG s.bright, scale s.pixelR s.bright]
      ∧ ((frame s).flatMap bitsMsbFirst).length = 72

/-- The multiplier, R85: the bypass; else bits 15:8 of the exact 16-bit product, at most 254; and the same by requested level. -/
def Obligations.MultiplierTakesTheHighProductByte : Prop :=
  ∀ x s : Byte,
    (s = 0#8 → scale x s = x)
      ∧ (s ≠ 0#8 → (scale x s).toNat = x.toNat * s.toNat / 256
          ∧ x.toNat * s.toNat ≤ 65025
          ∧ x.toNat * s.toNat / 256 ≤ 254
          ∧ scale x s = (x.setWidth 16 * s.setWidth 16).extractLsb' 8 8)
      ∧ ∀ level : Byte, (scale x (level + 1#8)).toNat =
          if level.toNat = 255 then x.toNat else x.toNat * (level.toNat + 1) / 256

/-- The multiplier's laws (M1) to (M7), R86. -/
def Obligations.MultiplierLaws : Prop :=
  ∀ x s : Byte,
    scale x 0#8 = x
      ∧ scale x 1#8 = 0#8
      ∧ scale 0#8 s = 0#8
      ∧ (s ≠ 0#8 → 0 < x.toNat → (scale x s).toNat < x.toNat)
      ∧ (s ≠ 0#8 → (scale x s).toNat ≤ 254)
      ∧ (s ≠ 0#8 → (scale 255#8 s).toNat = s.toNat - 1)
      ∧ (∀ level : Byte, scale 255#8 (level + 1#8) = level)
      ∧ (∀ x' : Byte, s ≠ 0#8 → x.toNat ≤ x'.toNat → (scale x s).toNat ≤ (scale x' s).toNat)
      ∧ (∀ s' : Byte, s ≠ 0#8 → s.toNat ≤ s'.toNat → (scale x s).toNat ≤ (scale x s').toNat)
      ∧ (s ≠ 0#8 → (scale x s).toNat = x.toNat * s.toNat / 256)

/-- The reference shift-and-add form of R87 is the multiplier of R85, and its 16-bit accumulator never exceeds 0xFE01. -/
def Obligations.ShiftAddMultiplierAgrees : Prop :=
  ∀ x s : Byte, scaleShiftAdd x s = scale x s ∧ ∀ n, n ≤ 8 → (shiftAddAcc x s n).toNat ≤ 0xFE01

/-- The serialiser, R88, and the byte gap, R89: most significant bit first, per bit data, clock high, clock low, each with its wait; every
`Set` writes its latch, one that rewrites the level changes nothing; and `Wait(T_GAP)`, which is greater than 0, after every one of the
nine bytes, the last too. -/
def Obligations.SerialiserSendsMsbFirstWithGaps : Prop :=
  (∀ v : Byte, byteEvents v =
    (List.range 8).flatMap (fun k =>
      [.set .data (v.getLsbD (7 - k)), .wait .setup, .set .clk true, .wait .clkHigh, .set .clk false, .wait .clkLow])
      ++ [.wait .gap])
    ∧ (∀ (v : Byte) (s : State),
      (sendBytes [v] s).trace = s.trace ++ byteEvents v ∧ (sendBytes [v] s).lines = replay (byteEvents v) s.lines)
    ∧ (∀ (l : Lines) (b : Bool),
      applyEvent l (.set .data b) = { l with dataLat := b } ∧ applyEvent l (.set .clk b) = { l with clkLat := b }
        ∧ (∀ t, applyEvent l (.wait t) = l) ∧ (l.dataLat = b → applyEvent l (.set .data b) = l))
    ∧ (∀ s : State, (bytesEvents (frame s)).count (.wait .gap) = 9 ∧ (bytesEvents (frame s)).getLast? = some (.wait .gap))
    ∧ 0 < TimingParam.gap.cycles

/-- Event counts and idle levels, R91. -/
def Obligations.EventCountsAndIdleLevels : Prop :=
  (∀ b : Bool, (bitEvents b).length = 6)
    ∧ (∀ v : Byte, (byteEvents v).length = 49)
    ∧ lazyInitEvents.length = 6
    ∧ (∀ s : State,
      (bytesEvents (frame s)).length = 441
        ∧ ∃ es, (transmit s).trace = s.trace ++ es ∧ es.length = (if s.linked then 441 else 447)
        ∧ (transmit s).lines.dataLat = true ∧ (transmit s).lines.clkLat = false)
    ∧ ∀ s : State, Inv s → s.busy = false → s.linked = true → lineData s.lines = true ∧ lineClk s.lines = false

/-- What the LED samples (R92; the rising edge is general knowledge, log 16, and a pulled-down line reads 0, log 15): along the events of
one Transmit exactly the bits of the nine frame bytes, most significant bit first, provided the clock latch is low and the lines are up
if linked, as R36 has it between commands. No power or mode event of SETPWR makes a clock edge. -/
def Obligations.LedSamplesTheFrameBits : Prop :=
  ∀ s : State, s.lines.clkLat = false → (s.linked = true → LinesUp s.lines) →
    ∃ es, (transmit s).trace = s.trace ++ es
      ∧ ledSamples s.lines es = (frame s).flatMap bitsMsbFirst
      ∧ ledSamples s.lines powerEnableEvents = []
      ∧ ledSamples s.lines powerDisableEvents = []

/-- The least duration of a frame and of lazy initialisation, R127. -/
def Obligations.FrameDurationBound : Prop :=
  (∀ s : State, minDuration (bytesEvents (frame s)) = 72 * (tSetup + tClkHigh + tClkLow) + 9 * tGap)
    ∧ minDuration lazyInitEvents = tSettle

/-! ### The colour cycle (44_cycle_color.md) -/

/-- Eligibility, R95: not armed, or the difference modulo 2^32 below 2^31; equality is reached; and the reading is exact while the true
distance between the time and the deadline is below 2^31 ms. -/
def Obligations.EligibilityIsWrapSafe : Prop :=
  ∀ s : State,
    (s.cycArmed = false → eligible s = true)
      ∧ (s.cycArmed = true → (eligible s = true ↔ (s.nowMs.toNat + 2 ^ 32 - s.cycDeadline.toNat) % 2 ^ 32 < 2 ^ 31))
      ∧ (s.nowMs = s.cycDeadline → eligible s = true)
      ∧ ∀ time deadline : ℕ, s.cycArmed = true → s.nowMs = BitVec.ofNat 32 time → s.cycDeadline = BitVec.ofNat 32 deadline →
        time < deadline + 2 ^ 31 → deadline < time + 2 ^ 31 → (eligible s = true ↔ deadline ≤ time)

/-- An eligible CYCLE (R94, R96, R97, R99) completes, from every state, in the state that sets the deadline from its own interval, arms
the limiter, steps the phase, stores the wheel's colour and transmits twice or once; every register not named is unchanged. -/
def Obligations.EligibleCycleStepsTheWheel : Prop :=
  ∀ (s : State) (interval : Packed), eligible s = true →
    exec (.cycle interval) s = .next
      (let u := { s with
          cycDeadline := s.nowMs + interval.setWidth 32
          cycArmed := true
          phase := s.phase + 1#8
          pixelR := (wheel (s.phase + 1#8)).r
          pixelG := (wheel (s.phase + 1#8)).g
          pixelB := (wheel (s.phase + 1#8)).b }
      if s.cfg.cycleDoubleShow then afterTransmit (afterTransmit u) else afterTransmit u)

/-- The deadline, R96: an eligible call sets it from the time and its own interval and arms the limiter; the next call is eligible once
`now_ms` reaches that deadline, whatever interval it carries. -/
def Obligations.DeadlineComesFromTheEligibleCall : Prop :=
  ∀ (s : State) (interval : Packed), eligible s = true →
    ∃ t, exec (.cycle interval) s = .next t
      ∧ t.cycDeadline = s.nowMs + interval.setWidth 32
      ∧ t.cycArmed = true
      ∧ ∀ (now : Word) (interval' : Packed),
        ((now - (s.nowMs + interval.setWidth 32)).toNat < 2 ^ 31 →
          ∃ u, exec (.cycle interval') { t with nowMs := now } = .next u ∧ u.phase = t.phase + 1#8)
        ∧ (¬(now - (s.nowMs + interval.setWidth 32)).toNat < 2 ^ 31 →
          exec (.cycle interval') { t with nowMs := now } = .next { t with nowMs := now })

/-- The hue wheel, R97: the three segments, as exact natural numbers, so that no value is cut off. -/
def Obligations.WheelHasThreeSegments : Prop :=
  ∀ p : Byte,
    (255 - p.toNat < 85 →
      (wheel p).r.toNat = 255 - (255 - p.toNat) * 3 ∧ (wheel p).g.toNat = 0 ∧ (wheel p).b.toNat = (255 - p.toNat) * 3)
      ∧ (85 ≤ 255 - p.toNat → 255 - p.toNat < 170 →
        (wheel p).r.toNat = 0 ∧ (wheel p).g.toNat = (255 - p.toNat - 85) * 3
          ∧ (wheel p).b.toNat = 255 - (255 - p.toNat - 85) * 3)
      ∧ (170 ≤ 255 - p.toNat →
        (wheel p).r.toNat = (255 - p.toNat - 170) * 3 ∧ (wheel p).g.toNat = 255 - (255 - p.toNat - 170) * 3
          ∧ (wheel p).b.toNat = 0)

/-- The wheel's laws (W1) to (W5), R98, and that only phases 0 and 255 share a colour. -/
def Obligations.WheelLaws : Prop :=
  (∀ p : Byte, (wheel p).r.toNat + (wheel p).g.toNat + (wheel p).b.toNat = 255)
    ∧ (∀ p : Byte,
      (255 - p.toNat < 85 → (wheel p).g = 0#8)
        ∧ (85 ≤ 255 - p.toNat → 255 - p.toNat < 170 → (wheel p).r = 0#8)
        ∧ (170 ≤ 255 - p.toNat → (wheel p).b = 0#8))
    ∧ (∀ p : Byte,
      (wheel (p + 1#8)).r.toNat ≤ (wheel p).r.toNat + 3 ∧ (wheel p).r.toNat ≤ (wheel (p + 1#8)).r.toNat + 3
        ∧ (wheel (p + 1#8)).g.toNat ≤ (wheel p).g.toNat + 3 ∧ (wheel p).g.toNat ≤ (wheel (p + 1#8)).g.toNat + 3
        ∧ (wheel (p + 1#8)).b.toNat ≤ (wheel p).b.toNat + 3 ∧ (wheel p).b.toNat ≤ (wheel (p + 1#8)).b.toNat + 3)
    ∧ wheel 0#8 = ⟨255#8, 0#8, 0#8⟩ ∧ wheel 255#8 = ⟨255#8, 0#8, 0#8⟩
    ∧ wheel 85#8 = ⟨0#8, 255#8, 0#8⟩ ∧ wheel 170#8 = ⟨0#8, 0#8, 255#8⟩
    ∧ (∀ p q : Byte, p.toNat < q.toNat →
      (q.toNat ≤ 85 → (wheel q).r.toNat < (wheel p).r.toNat ∧ (wheel p).g.toNat < (wheel q).g.toNat)
        ∧ (85 ≤ p.toNat → q.toNat ≤ 170 → (wheel q).g.toNat < (wheel p).g.toNat ∧ (wheel p).b.toNat < (wheel q).b.toNat)
        ∧ (170 ≤ p.toNat → (wheel q).b.toNat < (wheel p).b.toNat ∧ (wheel p).r.toNat < (wheel q).r.toNat))
    ∧ ∀ p q : Byte, p.toNat < q.toNat → wheel p = wheel q → p = 0#8 ∧ q = 255#8

/-- Double transmission, R99: with P_CYCLE_DOUBLE_SHOW, true by default, two identical frames, the second without lazy initialisation;
with false, one. -/
def Obligations.CycleSendsTwoFramesOrOne : Prop :=
  State.reset.cfg.cycleDoubleShow = true
    ∧ ∀ (s : State) (interval : Packed), eligible s = true →
      ∃ t, exec (.cycle interval) s = .next t
        ∧ (s.cfg.cycleDoubleShow = true →
          t.trace = s.trace ++ (if s.linked then [] else lazyInitEvents) ++ bytesEvents (frame t) ++ bytesEvents (frame t))
        ∧ (s.cfg.cycleDoubleShow = false →
          t.trace = s.trace ++ (if s.linked then [] else lazyInitEvents) ++ bytesEvents (frame t))

/-- Not eligible, R100: no state changes, no wire event, `busy` not set, at the command level and in the accept cycle. -/
def Obligations.IneligibleCycleDoesNothing : Prop :=
  ∀ (s : State) (interval : Packed), eligible s = false →
    exec (.cycle interval) s = .next s ∧ ∀ w : Word, decode w = .ok (.cycle interval) → accept w s = s

/-! ### Colour pack (45_color_pack.md) -/

/-- COLOR (R101): `result` takes (r << 16) | (g << 8) | b, and nothing else changes. -/
def Obligations.ColorPacksIntoResult : Prop :=
  ∀ (r g b : Byte) (s : State), ∃ v : Packed,
    exec (.color r g b) s = .next { s with result := v }
      ∧ v.toNat = r.toNat * 2 ^ 16 + g.toNat * 2 ^ 8 + b.toNat

/-- Pack and unpack are inverse, R102: on channels, on packed values, and for the host that runs COLOR, reads RESULT as v, and issues
SETPIXP v[23:0]. -/
def Obligations.PackAndUnpackAreInverse : Prop :=
  (∀ r g b : Byte,
    packedRed (packColor r g b) = r ∧ packedGreen (packColor r g b) = g ∧ packedBlue (packColor r g b) = b)
    ∧ (∀ v : Packed, packColor (packedRed v) (packedGreen v) (packedBlue v) = v)
    ∧ ∀ (r g b : Byte) (s : State), ∃ t u,
      exec (.color r g b) s = .next t
        ∧ exec (.setPixP ((portView 2#3 t).extractLsb' 0 24)) t = .next u
        ∧ u.pixelR = r ∧ u.pixelG = g ∧ u.pixelB = b

/-- SETPIXP and SETPIX of the same operand bits give the same result (R74, corner cases). -/
def Obligations.SetPixPAgreesWithSetPix : Prop :=
  ∀ (r g b : Byte) (s : State), exec (.setPixP (r ++ g ++ b)) s = exec (.setPix r g b) s

/-! ### Exceptions and time (60_exceptions.md) -/

/-- No command of the eight raises any exception (R103): each completes from every state, the record of illegal words unchanged, and
the record starts clear. -/
def Obligations.NoCommandRaisesAnException : Prop :=
  State.reset.ill = false ∧ State.reset.errw = 0#32
    ∧ ∀ (i : Instr) (s : State), ∃ t, exec i s = .next t ∧ t.ill = s.ill ∧ t.errw = s.errw

/-- STATUS.ILL is sticky, R105: no step but a reset clears it or replaces the word it recorded, a reset clears both, and the step that
sets it records the illegal word accepted in that step: the one held, or the one presented. -/
def Obligations.IllegalRecordIsStickyUntilReset : Prop :=
  (∀ s t : State, step s = .next t → ¬ResetNext s →
    (s.ill = true → t.ill = true ∧ t.errw = s.errw)
      ∧ (s.ill = false → t.ill = true →
        decode t.errw = .error (.illegalCommand t.errw)
          ∧ (s.held = some t.errw
            ∨ s.inputs.head? = some (.command t.errw)
            ∨ s.inputs.head? = some (.access (.write 0#3 t.errw))
            ∨ ∃ bytes, wordOfBytes bytes = some t.errw ∧ s.inputs.head? = some (.bridgeWrite 0 bytes))))
    ∧ ∀ s : State, ResetNext s → ∃ t, step s = .next t ∧ t.ill = false ∧ t.errw = 0#32

/-- Only CYCLE uses the time sample (R112): for every other command, another reading of `now_ms` changes nothing. -/
def Obligations.OnlyCycleReadsTheTime : Prop :=
  ∀ (i : Instr) (s : State) (now : Word), (∀ interval, i ≠ .cycle interval) →
    ∃ t, exec i s = .next t ∧ exec i { s with nowMs := now } = .next { t with nowMs := now }

/-! ### Reset and hazards (70_reset_and_hazards.md) -/

/-- Reset (R117): from every state, whatever is running, every field of R15 takes its reset value, the sequencer is at IDLE, the transfer
of that cycle completes without effect, a read of it gives a reset value, and the trace is empty. That a write still held is dropped too is
the model's choice (log 18). -/
def Obligations.ResetSetsEveryField : Prop :=
  ∀ (s : State) (x : Option PortAccess) (rest : List Input), s.inputs = .reset x :: rest →
    ∃ t, step s = .next t
      ∧ t.pixelB = 0#8 ∧ t.pixelG = 0#8 ∧ t.pixelR = 0#8 ∧ t.bright = 0#8 ∧ t.linked = false ∧ t.phase = 0#8
      ∧ t.cycDeadline = 0#32 ∧ t.cycArmed = false ∧ t.result = 0#24 ∧ t.ill = false ∧ t.errw = 0#32 ∧ t.busy = false
      ∧ t.lines = { pwrN := true, dataMode := .inPd, clkMode := .inPd, dataLat := false, clkLat := false }
      ∧ t.seq.step = .idle ∧ t.held = none ∧ t.trace = []
      ∧ (x ≠ none → t.ready = true) ∧ ∀ a, x = some (.read a) → t.rdata = portView a State.reset

/-- What is outside the block a reset leaves alone: the parameters, the time input and the inputs to come. The model's choice (log 18). -/
def Obligations.ResetLeavesTheOutsideAlone : Prop :=
  ∀ (s : State) (x : Option PortAccess) (rest : List Input), s.inputs = .reset x :: rest →
    ∃ t, step s = .next t ∧ t.cfg = s.cfg ∧ t.nowMs = s.nowMs ∧ t.inputs = rest

/-- Reset during a frame (R123, R117): whatever was running, the reset removes LED power, and a SHOW after it runs lazy initialisation
and sends a complete frame from the start, which is all there is in the trace. -/
def Obligations.ResetDuringAFrameThenShow : Prop :=
  ∀ (s : State) (x : Option PortAccess), s.inputs = [.reset x, .command 0x06000000#32] →
    ∃ t u, step s = .next t ∧ t.lines.pwrN = true ∧ t.linked = false
      ∧ Host.Core.run core 2 s = .next u
      ∧ u.trace = lazyInitEvents
          ++ bytesEvents [0x00#8, 0x00#8, 0x00#8, 0x00#8, 0xFF#8, 0x00#8, 0x00#8, 0x00#8, 0xFF#8]

/-- Power-off between frames (R124): SETPWR 0 removes power and pulls both lines down; the stored pixel and brightness survive it, and the
SHOW after it runs lazy initialisation and sends the same frame as before. That both line levels then read 0 rests on the spec's general
knowledge that the pull-down wins (R26, G1, log 15). -/
def Obligations.PixelSurvivesPowerOff : Prop :=
  ∀ s : State, ∃ t u,
    exec (.setPwr false) s = .next t
      ∧ t.lines.pwrN = true ∧ lineData t.lines = false ∧ lineClk t.lines = false
      ∧ t.pixelR = s.pixelR ∧ t.pixelG = s.pixelG ∧ t.pixelB = s.pixelB ∧ t.bright = s.bright
      ∧ exec .showPixel t = .next u
      ∧ u.trace = t.trace ++ lazyInitEvents ++ bytesEvents (frame s)

/-! ### The whole machine -/

/-- What each command leaves unchanged (R15, "written by"): a register changes only by the commands R15 names, and no command touches
the transfer, the inputs, the parameters or the sequencer at the command level (R13, R28). -/
def Obligations.RegistersChangeOnlyByTheirCommands : Prop :=
  ∀ (i : Instr) (s : State), ∃ t, exec i s = .next t
    ∧ ((∀ level, i ≠ .setBri level) → t.bright = s.bright)
    ∧ ((∀ r g b, i ≠ .color r g b) → t.result = s.result)
    ∧ ((∀ interval, i ≠ .cycle interval) → t.phase = s.phase ∧ t.cycDeadline = s.cycDeadline ∧ t.cycArmed = s.cycArmed)
    ∧ ((∀ r g b, i ≠ .setPix r g b) → (∀ v, i ≠ .setPixP v) → i ≠ .clear → (∀ interval, i ≠ .cycle interval) →
      t.pixelR = s.pixelR ∧ t.pixelG = s.pixelG ∧ t.pixelB = s.pixelB)
    ∧ ((∃ level, i = .setBri level) ∨ (∃ r g b, i = .color r g b) →
      t.linked = s.linked ∧ t.lines = s.lines ∧ t.trace = s.trace)
    ∧ (i ≠ .setPwr false → s.linked = true → t.linked = true)
    ∧ t.ill = s.ill ∧ t.errw = s.errw
    ∧ t.busy = s.busy ∧ t.seq = s.seq ∧ t.held = s.held
    ∧ t.rdata = s.rdata ∧ t.ready = s.ready ∧ t.nowMs = s.nowMs ∧ t.cfg = s.cfg ∧ t.inputs = s.inputs

/-- Wire events are only ever added at the end of the trace, and nothing but them changes the line state (R47, R90): for every step but a
reset, the lines after it are the lines before it with the new events replayed. -/
def Obligations.StepsOnlyAppendWireEvents : Prop :=
  ∀ s t : State, step s = .next t → ¬ResetNext s →
    ∃ es, t.trace = s.trace ++ es ∧ t.lines = replay es s.lines

/-- Every step keeps the invariant of Safety.lean: R36's (I1) to (I4), strengthened to the points inside a command (for (I1) see log 4),
with the sequencer's positions and the line state as the replay of the trace. -/
def Obligations.EveryStepKeepsTheInvariant : Prop :=
  ∀ s t : State, Inv s → step s = .next t → Inv t

/-- The invariant holds after reset, whatever is presented then, whatever the time reads, for either parameter. -/
def Obligations.ResetHasTheInvariant : Prop :=
  ∀ (inputs : List Input) (now : Word) (cfg : Config), Inv { State.reset with inputs := inputs, nowMs := now, cfg := cfg }

/-- R36, for every state reachable from reset: (I4) in every such state; (I2) and (I3) between commands; (I1) between commands and inside
every command, but for the points inside PowerDisable, where R69 clears `linked` last and R48 (b) has the point seen (log 4). At the command
level (R13), where each command is one step and no write is presented event by event, every reachable state is between commands, so it meets
(I1) to (I4) without exception. -/
def Obligations.ReachableStatesMeetTheRules : Prop :=
  ∀ (inputs : List Input) (now : Word) (cfg : Config) (n : ℕ) (t : State),
    Host.Core.run core n { State.reset with inputs := inputs, nowMs := now, cfg := cfg } = .next t →
      ((t.busy = false ∨ ¬Unlinking t) → t.linked = true →
        t.lines.pwrN = false ∧ t.lines.dataMode = .out ∧ t.lines.clkMode = .out)
      ∧ (t.busy = false → t.lines.clkLat = false)
      ∧ (t.busy = false → (t.lines.dataLat = true ↔ 1 ≤ framesSent t.trace))
      ∧ (t.ill = false → t.errw = 0#32)
      ∧ ((∀ x ∈ inputs, ¬IsEventLevelWrite x) → t.busy = false)

/-- The event level refines the command level (R13, R28, R46, R48 (c)): from an idle block, a CMD write seen event by event ends, after
at most 890 ticks, during each of which `busy` is 1, in exactly the state the same word gives in one step at the command level. The
number counts ticks as log 5 and log 6 say. -/
def Obligations.EventLevelEndsInTheCommandLevelState : Prop :=
  ∀ (s : State) (w : Word), Idle s →
    ∃ n, n ≤ 890
      ∧ Host.Core.run core (n + 1) { s with inputs := [.access (.write 0#3 w)] } = step { s with inputs := [.command w] }
      ∧ ∀ k, k < n → ∃ t,
        Host.Core.run core (k + 1) { s with inputs := [.access (.write 0#3 w)] } = .next t ∧ t.busy = true

/-- A running command always ends (D7, R121): from every state that meets the invariant, with nothing more presented, the block is idle
within 890 steps, a held write still held. The number counts one step an event and one each to link, to unlink and to end (log 4, log 5, log 6). -/
def Obligations.RunningCommandEnds : Prop :=
  ∀ s : State, Inv s → s.busy = true → s.inputs = [] →
    ∃ n t, n ≤ 890 ∧ Host.Core.run core n s = .next t ∧ t.busy = false ∧ t.seq = idlePos ∧ t.held = s.held

/-- WAITIDLE ends (R49, R65): from every state that meets the invariant, with no write held, the poll loop ends within 891 steps, at a
read of STATUS whose bit 0 is 0, the block idle and the inputs after it untouched. One poll an event is the model's choice (log 24). -/
def Obligations.WaitIdleEnds : Prop :=
  ∀ (s : State) (rest : List Input), Inv s → s.held = none → s.inputs = .waitIdle :: rest →
    ∃ n t, n ≤ 891 ∧ Host.Core.run core n s = .next t
      ∧ t.rdata.getLsbD 0 = false ∧ t.busy = false ∧ t.seq = idlePos ∧ t.inputs = rest

/-! ### The assembler's text (30_encoding.md) -/

/-- R66 as text: what the disassembler prints for a word whose ignored bits are 0, the illegal words too, is a line that the assembler turns
into the one CMD write of that word. The text's details are the model's choice (log 22), and so is that the write is seen at the command
level (log 29). -/
def Obligations.PrintedTextAssemblesToTheWord : Prop :=
  ∀ w : Word, (∀ i, decode w = .ok i → w &&& ignoredMask i = 0#32) →
    assembleLine (render (disassemble w)) = some [.command w]

/-! ### PowerDisable, event by event (41_power_link.md, 20_memory.md) -/

/-- R69 event by event (R48 (b), R90): after `n` ticks of a SETPWR 0, as many of its three events are out, in order, and the lines are what
they have made of them; `linked` is as it was before the command until the tick after the three, which clears it and emits nothing (a tick
of its own by log 4); and a STATUS read at each of these points shows them, BUSY being 1. -/
def Obligations.PowerDisableUnlinksAfterItsEvents : Prop :=
  ∀ (w : Word) (s : State) (n : ℕ), decode w = .ok (.setPwr false) →
    (tick^[n] (accept w s)).trace = s.trace ++ powerDisableEvents.take n
      ∧ (tick^[n] (accept w s)).lines = replay (powerDisableEvents.take n) s.lines
      ∧ (n ≤ 3 → (portView 1#3 (tick^[n] (accept w s))).getLsbD 0 = true
        ∧ (portView 1#3 (tick^[n] (accept w s))).getLsbD 1 = s.linked
        ∧ ((portView 1#3 (tick^[n] (accept w s))).getLsbD 2 = true ↔ n = 0 ∧ s.lines.pwrN = false)
        ∧ ((portView 1#3 (tick^[n] (accept w s))).getLsbD 5 = true ↔ n ≤ 1 ∧ s.lines.dataMode = .out)
        ∧ ((portView 1#3 (tick^[n] (accept w s))).getLsbD 6 = true ↔ n ≤ 2 ∧ s.lines.clkMode = .out))
      ∧ (4 ≤ n → (tick^[n] (accept w s)).linked = false)
end

