-- ==== Sys2Proof/Laws/Assembler.lean ====
section
/-!
SUPPORT. Every decoded command is well formed, and writing it as numbers and reading it back gives it again. Of the text: numbers are read
back as they are printed, and a run of plain characters is one token.
-/

namespace Sys2Proof

/-- A decoded command's numbers are in the ranges of R64. -/
@[simp] theorem toAsm_wellFormed (i : Instr) : i.toAsm.wellFormed = true := by
  have lt : ∀ {n : ℕ} (x : BitVec n), x.toNat < 2 ^ n := fun x => x.isLt
  cases i with
  | setPwr en => cases en <;> rfl
  | setBri level => simpa [Instr.toAsm, AsmCmd.wellFormed] using lt level
  | setPix r g b => simpa [Instr.toAsm, AsmCmd.wellFormed, and_assoc] using ⟨lt r, lt g, lt b⟩
  | setPixP packed => simpa [Instr.toAsm, AsmCmd.wellFormed] using lt packed
  | clear => rfl
  | showPixel => rfl
  | cycle interval => simpa [Instr.toAsm, AsmCmd.wellFormed] using lt interval
  | color r g b => simpa [Instr.toAsm, AsmCmd.wellFormed, and_assoc] using ⟨lt r, lt g, lt b⟩

/-- Reading a decoded command's numbers back gives the command. -/
@[simp] theorem toInstr_toAsm (i : Instr) : i.toAsm.toInstr = some i := by
  unfold AsmCmd.toInstr
  rw [if_pos (toAsm_wellFormed i)]
  cases i with
  | setPwr en => cases en <;> rfl
  | _ => simp [Instr.toAsm]

/-- Only a well-formed line stands for a command. -/
theorem wellFormed_of_toInstr {c : AsmCmd} {i : Instr} (h : c.toInstr = some i) : c.wellFormed = true := by
  unfold AsmCmd.toInstr at h
  split at h
  · assumption
  · cases h

end Sys2Proof

namespace Sys2Proof.Machine

/-! ### Numbers as text -/

/-- A character of a word: no blank, no comma, no comment (R64). -/
def isPlain (c : Char) : Bool := !isBlankChar c && c != ',' && c != ';'

/-- A decimal digit's value. -/
theorem digitValue_digit {c : Char} (h : c.isDigit = true) : digitValue 10 c = some (c.toNat - '0'.toNat) := by
  have hle : c.toNat ≤ 57 := by
    simp only [Char.isDigit, Bool.and_eq_true, decide_eq_true_eq] at h
    exact h.2
  have hlt : c.toNat - '0'.toNat < 10 := by
    have : '0'.toNat = 48 := rfl
    omega
  simp only [digitValue, h, if_true, hlt]

/-- A run of decimal digits has the value core Lean gives it. -/
theorem digitsValue_digits (cs : List Char) (acc : ℕ) (h : ∀ c ∈ cs, c.isDigit = true) :
    digitsValue 10 cs acc = some (Nat.ofDigitChars 10 cs acc) := by
  induction cs generalizing acc with
  | nil => rfl
  | cons c cs ih =>
    rw [digitsValue, digitValue_digit (h c (by simp)), Nat.ofDigitChars_cons, Nat.mul_comm 10 acc]
    exact ih _ fun d hd => h d (by simp [hd])

theorem isDigit_decimal {n : ℕ} {c : Char} (h : c ∈ decimal n) : c.isDigit = true :=
  Nat.isDigit_of_mem_toDigits (by decide) (by decide) h

/-- A printed number is read back (R64). -/
theorem parseNumber_decimal (n : ℕ) : parseNumber (decimal n) = some n := by
  have value : digitsValue 10 (decimal n) 0 = some n := by
    rw [digitsValue_digits _ _ fun c hc => isDigit_decimal hc, decimal, Nat.ofDigitChars_toDigits (by decide) (by decide)]
  unfold parseNumber
  split
  · rename_i h
    have : ('X').isDigit = true := isDigit_decimal (n := n) (by rw [h]; simp)
    exact absurd this (by decide)
  · rename_i h
    rw [← h]
    exact value
  · rename_i h
    exact absurd h Nat.toDigits_ne_nil

/-- A hexadecimal digit, as printed, has its value. -/
theorem digitValue_hex {d : ℕ} (h : d < 16) : digitValue 16 (Nat.digitChar d).toUpper = some d := by
  have all : ∀ k : Fin 16, digitValue 16 (Nat.digitChar k.val).toUpper = some k.val := by decide
  exact all ⟨d, h⟩

theorem digitsValue_append (base : ℕ) (cs : List Char) (c : Char) (acc v d : ℕ)
    (hcs : digitsValue base cs acc = some v) (hc : digitValue base c = some d) :
    digitsValue base (cs ++ [c]) acc = some (v * base + d) := by
  induction cs generalizing acc with
  | nil =>
    simp only [digitsValue, Option.some.injEq] at hcs
    subst hcs
    simp [digitsValue, hc]
  | cons b cs ih =>
    simp only [digitsValue, List.cons_append] at hcs ⊢
    split at hcs
    · exact ih _ hcs
    · cases hcs

/-- A number printed in `n` hexadecimal digits is read back. -/
theorem digitsValue_hexDigits (n v : ℕ) (h : v < 16 ^ n) : digitsValue 16 (hexDigits n v) 0 = some v := by
  induction n generalizing v with
  | zero =>
    obtain rfl : v = 0 := by simpa using h
    rfl
  | succ n ih =>
    have hd : v / 16 < 16 ^ n := Nat.div_lt_of_lt_mul (by rw [Nat.pow_succ, Nat.mul_comm] at h; exact h)
    rw [hexDigits, digitsValue_append 16 _ _ 0 (v / 16) (v % 16) (ih _ hd) (digitValue_hex (Nat.mod_lt _ (by decide)))]
    congr 1
    omega

/-! ### Plain text -/

/-- A run of plain characters goes into the token being read. -/
theorem tokens_plain (cs rest cur : List Char) (h : cs.all isPlain = true) :
    tokens (cs ++ rest) cur = tokens rest ((cs.map Char.toUpper).reverse ++ cur) := by
  induction cs generalizing cur with
  | nil => rfl
  | cons c cs ih =>
    simp only [List.all_cons, Bool.and_eq_true, isPlain, bne_iff_ne, Bool.not_eq_true'] at h
    obtain ⟨⟨⟨hb, hc⟩, -⟩, hcs⟩ := h
    rw [List.cons_append, tokens, hb, beq_eq_false_iff_ne.mpr hc]
    simp only [Bool.false_eq_true, if_false]
    rw [ih _ hcs]
    simp

/-- Plain characters hold no comment. -/
theorem stripComment_plain (cs rest : List Char) (h : cs.all isPlain = true) :
    stripComment (cs ++ rest) = cs ++ stripComment rest := by
  refine List.takeWhile_append_of_pos fun c hc => ?_
  have := List.all_eq_true.mp h c hc
  simp only [isPlain, Bool.and_eq_true] at this
  exact this.2

theorem isPlain_of_isDigit {c : Char} (h : c.isDigit = true) : isPlain c = true := by
  have hne : ∀ d : Char, d.isDigit = false → c ≠ d := by
    rintro d hd rfl
    rw [h] at hd
    cases hd
  simp [isPlain, isBlankChar, hne ' ' (by decide), hne '\t' (by decide), hne '\r' (by decide), hne ',' (by decide), hne ';' (by decide)]

theorem toUpper_of_isDigit {c : Char} (h : c.isDigit = true) : c.toUpper = c := by
  have hle : c.toNat ≤ 57 := by
    simp only [Char.isDigit, Bool.and_eq_true, decide_eq_true_eq] at h
    exact h.2
  unfold Char.toUpper
  split
  · rename_i hc
    have : 97 ≤ c.toNat := hc.1
    omega
  · rfl

/-- A printed number is plain. -/
theorem decimal_plain (n : ℕ) : (decimal n).all isPlain = true :=
  List.all_eq_true.mpr fun _ hc => isPlain_of_isDigit (isDigit_decimal hc)

/-- Upper case leaves a printed number alone. -/
theorem decimal_toUpper (n : ℕ) : (decimal n).map Char.toUpper = decimal n :=
  (List.map_congr_left fun _ hc => toUpper_of_isDigit (isDigit_decimal hc)).trans (List.map_id _)

/-- A number printed in hexadecimal is plain and upper case. -/
theorem hexDigits_plain (n v : ℕ) : (hexDigits n v).all isPlain = true ∧ (hexDigits n v).map Char.toUpper = hexDigits n v := by
  have digit : ∀ k : Fin 16, isPlain (Nat.digitChar k.val).toUpper = true
      ∧ (Nat.digitChar k.val).toUpper.toUpper = (Nat.digitChar k.val).toUpper := by decide
  induction n generalizing v with
  | zero => exact ⟨rfl, rfl⟩
  | succ n ih =>
    obtain ⟨hp, hu⟩ := digit ⟨v % 16, Nat.mod_lt _ (by decide)⟩
    simp only [hexDigits, List.all_append, List.map_append, (ih (v / 16)).1, (ih (v / 16)).2, List.all_cons, List.all_nil, List.map_cons,
      List.map_nil, hp, hu, Bool.and_self, and_self]

end Sys2Proof.Machine
end

