-- ==== Sys2Proof/Laws/Decode.lean ====
section
/-!
SUPPORT. The fields of a word: what each field of an encoded command is, and how the fields of layout RGB24 lie within the operand.
-/

namespace Sys2Proof

/-! ### Taking a concatenation apart -/

theorem extract_append_high {m n : ℕ} (a : BitVec m) (b : BitVec n) : (a ++ b).extractLsb' n m = a := by
  ext k hk
  simp [BitVec.getElem_extractLsb', BitVec.getLsbD_append, hk]

theorem extract_append_low {m n : ℕ} (a : BitVec m) (b : BitVec n) : (a ++ b).extractLsb' 0 n = b := by
  ext k hk
  simp [BitVec.getElem_extractLsb', BitVec.getLsbD_append, hk]

/-- The opcode field of a command's word is its opcode (R54, R59). -/
@[simp] theorem opField_encode (i : Instr) : opField (encode i) = opcode i := extract_append_high (opcode i) (operand i)

/-- The operand field of a command's word is its operand (R54, R56). -/
@[simp] theorem opdField_encode (i : Instr) : opdField (encode i) = operand i := extract_append_low (opcode i) (operand i)

/-- A word is its opcode field before its operand field (R54). -/
theorem word_eq_fields (w : Word) : w = (opField w ++ opdField w : Word) := by
  apply BitVec.eq_of_toNat_eq
  rw [show BitVec.toNat (w := 32) (opField w ++ opdField w) = _ from BitVec.toNat_append _ _]
  simp only [opField, opdField, BitVec.extractLsb'_toNat]
  rw [← Nat.shiftLeft_add_eq_or_of_lt (by omega)]
  have := w.isLt
  simp only [Nat.shiftLeft_eq, Nat.shiftRight_eq_div_pow]
  omega

/-- Two words are equal if their opcode and operand fields are. -/
theorem word_ext {w w' : Word} (hop : opField w = opField w') (hopd : opdField w = opdField w') : w = w' := by
  rw [word_eq_fields w, word_eq_fields w', hop, hopd]

theorem opField_and_not (w m : Word) : opField (w &&& ~~~m) = opField w &&& ~~~opField m := by
  ext k hk
  have h : 24 + k < 32 := by omega
  simp [opField, BitVec.getElem_extractLsb', h]

theorem opdField_and_not (w m : Word) : opdField (w &&& ~~~m) = opdField w &&& ~~~opdField m := by
  ext k hk
  have h : k < 32 := by omega
  simp [opdField, BitVec.getElem_extractLsb', h]

/-! ### The operand layouts -/

theorem redField_eq (w : Word) : redField w = Machine.packedRed (opdField w) := by
  ext k hk
  simp [redField, Machine.packedRed, opdField, BitVec.getElem_extractLsb']

theorem greenField_eq (w : Word) : greenField w = Machine.packedGreen (opdField w) := by
  ext k hk
  simp [greenField, Machine.packedGreen, opdField, BitVec.getElem_extractLsb']

theorem blueField_eq (w : Word) : blueField w = Machine.packedBlue (opdField w) := by
  ext k hk
  simp [blueField, Machine.packedBlue, opdField, BitVec.getElem_extractLsb']

theorem enField_eq (w : Word) : enField w = (opdField w).getLsbD 0 := by
  simp [enField, opdField]

/-! ### The channels of a packed colour -/

@[simp] theorem packedRed_append (r g b : Byte) : Machine.packedRed (r ++ g ++ b) = r := by
  ext k hk
  have outer := BitVec.getLsbD_append (x := r ++ g) (y := b) (i := 16 + k)
  have inner := BitVec.getLsbD_append (x := r) (y := g) (i := 8 + k)
  rw [show 16 + k - 8 = 8 + k by omega] at outer
  simp only [show ¬16 + k < 8 by omega, show ¬8 + k < 8 by omega, if_false, inner, Nat.add_sub_cancel_left] at outer
  simp only [Machine.packedRed, BitVec.getElem_extractLsb']
  rw [← BitVec.getLsbD_eq_getElem]
  exact outer

@[simp] theorem packedGreen_append (r g b : Byte) : Machine.packedGreen (r ++ g ++ b) = g := by
  ext k hk
  have outer := BitVec.getLsbD_append (x := r ++ g) (y := b) (i := 8 + k)
  have inner := BitVec.getLsbD_append (x := r) (y := g) (i := k)
  simp only [show ¬8 + k < 8 by omega, if_false, inner, hk, if_true, Nat.add_sub_cancel_left] at outer
  simp only [Machine.packedGreen, BitVec.getElem_extractLsb']
  rw [← BitVec.getLsbD_eq_getElem]
  exact outer

@[simp] theorem packedBlue_append (r g b : Byte) : Machine.packedBlue (r ++ g ++ b) = b := extract_append_low (r ++ g) b

/-- The packed colour as a number (R101). -/
theorem packColor_toNat (r g b : Byte) :
    (Machine.packColor r g b).toNat = r.toNat * 2 ^ 16 + g.toNat * 2 ^ 8 + b.toNat := by
  have hg := g.isLt
  have hb := b.isLt
  rw [Machine.packColor, show BitVec.toNat (w := 24) (r ++ g ++ b) = _ from BitVec.toNat_append (r ++ g) b, BitVec.toNat_append,
    ← Nat.shiftLeft_add_eq_or_of_lt hb, ← Nat.shiftLeft_add_eq_or_of_lt hg]
  simp only [Nat.shiftLeft_eq]
  ring

end Sys2Proof
end

