-- ==== Sys2Proof/Laws/State.lean ====
section
/-!
SUPPORT. What each update of the state does to each field, by unfolding once, so that no later proof unfolds a record update.
-/

namespace Sys2Proof.Machine

variable (s : State)

/-! ### `emitAll` -/

@[simp] theorem emitAll_pixelB (es : List WireEvent) : (emitAll es s).pixelB = s.pixelB := rfl
@[simp] theorem emitAll_pixelG (es : List WireEvent) : (emitAll es s).pixelG = s.pixelG := rfl
@[simp] theorem emitAll_pixelR (es : List WireEvent) : (emitAll es s).pixelR = s.pixelR := rfl
@[simp] theorem emitAll_bright (es : List WireEvent) : (emitAll es s).bright = s.bright := rfl
@[simp] theorem emitAll_linked (es : List WireEvent) : (emitAll es s).linked = s.linked := rfl
@[simp] theorem emitAll_phase (es : List WireEvent) : (emitAll es s).phase = s.phase := rfl
@[simp] theorem emitAll_cycDeadline (es : List WireEvent) : (emitAll es s).cycDeadline = s.cycDeadline := rfl
@[simp] theorem emitAll_cycArmed (es : List WireEvent) : (emitAll es s).cycArmed = s.cycArmed := rfl
@[simp] theorem emitAll_result (es : List WireEvent) : (emitAll es s).result = s.result := rfl
@[simp] theorem emitAll_ill (es : List WireEvent) : (emitAll es s).ill = s.ill := rfl
@[simp] theorem emitAll_errw (es : List WireEvent) : (emitAll es s).errw = s.errw := rfl
@[simp] theorem emitAll_busy (es : List WireEvent) : (emitAll es s).busy = s.busy := rfl
@[simp] theorem emitAll_lines (es : List WireEvent) : (emitAll es s).lines = replay es s.lines := rfl
@[simp] theorem emitAll_seq (es : List WireEvent) : (emitAll es s).seq = s.seq := rfl
@[simp] theorem emitAll_rdata (es : List WireEvent) : (emitAll es s).rdata = s.rdata := rfl
@[simp] theorem emitAll_ready (es : List WireEvent) : (emitAll es s).ready = s.ready := rfl
@[simp] theorem emitAll_held (es : List WireEvent) : (emitAll es s).held = s.held := rfl
@[simp] theorem emitAll_nowMs (es : List WireEvent) : (emitAll es s).nowMs = s.nowMs := rfl
@[simp] theorem emitAll_trace (es : List WireEvent) : (emitAll es s).trace = s.trace ++ es := rfl
@[simp] theorem emitAll_cfg (es : List WireEvent) : (emitAll es s).cfg = s.cfg := rfl
@[simp] theorem emitAll_inputs (es : List WireEvent) : (emitAll es s).inputs = s.inputs := rfl

/-! ### `powerEnable` -/

@[simp] theorem powerEnable_pixelB : (powerEnable s).pixelB = s.pixelB := rfl
@[simp] theorem powerEnable_pixelG : (powerEnable s).pixelG = s.pixelG := rfl
@[simp] theorem powerEnable_pixelR : (powerEnable s).pixelR = s.pixelR := rfl
@[simp] theorem powerEnable_bright : (powerEnable s).bright = s.bright := rfl
@[simp] theorem powerEnable_linked : (powerEnable s).linked = s.linked := rfl
@[simp] theorem powerEnable_phase : (powerEnable s).phase = s.phase := rfl
@[simp] theorem powerEnable_cycDeadline : (powerEnable s).cycDeadline = s.cycDeadline := rfl
@[simp] theorem powerEnable_cycArmed : (powerEnable s).cycArmed = s.cycArmed := rfl
@[simp] theorem powerEnable_result : (powerEnable s).result = s.result := rfl
@[simp] theorem powerEnable_ill : (powerEnable s).ill = s.ill := rfl
@[simp] theorem powerEnable_errw : (powerEnable s).errw = s.errw := rfl
@[simp] theorem powerEnable_busy : (powerEnable s).busy = s.busy := rfl
@[simp] theorem powerEnable_lines : (powerEnable s).lines = replay powerEnableEvents s.lines := rfl
@[simp] theorem powerEnable_seq : (powerEnable s).seq = s.seq := rfl
@[simp] theorem powerEnable_rdata : (powerEnable s).rdata = s.rdata := rfl
@[simp] theorem powerEnable_ready : (powerEnable s).ready = s.ready := rfl
@[simp] theorem powerEnable_held : (powerEnable s).held = s.held := rfl
@[simp] theorem powerEnable_nowMs : (powerEnable s).nowMs = s.nowMs := rfl
@[simp] theorem powerEnable_trace : (powerEnable s).trace = s.trace ++ powerEnableEvents := rfl
@[simp] theorem powerEnable_cfg : (powerEnable s).cfg = s.cfg := rfl
@[simp] theorem powerEnable_inputs : (powerEnable s).inputs = s.inputs := rfl

/-! ### `powerDisable` -/

@[simp] theorem powerDisable_pixelB : (powerDisable s).pixelB = s.pixelB := rfl
@[simp] theorem powerDisable_pixelG : (powerDisable s).pixelG = s.pixelG := rfl
@[simp] theorem powerDisable_pixelR : (powerDisable s).pixelR = s.pixelR := rfl
@[simp] theorem powerDisable_bright : (powerDisable s).bright = s.bright := rfl
@[simp] theorem powerDisable_linked : (powerDisable s).linked = false := rfl
@[simp] theorem powerDisable_phase : (powerDisable s).phase = s.phase := rfl
@[simp] theorem powerDisable_cycDeadline : (powerDisable s).cycDeadline = s.cycDeadline := rfl
@[simp] theorem powerDisable_cycArmed : (powerDisable s).cycArmed = s.cycArmed := rfl
@[simp] theorem powerDisable_result : (powerDisable s).result = s.result := rfl
@[simp] theorem powerDisable_ill : (powerDisable s).ill = s.ill := rfl
@[simp] theorem powerDisable_errw : (powerDisable s).errw = s.errw := rfl
@[simp] theorem powerDisable_busy : (powerDisable s).busy = s.busy := rfl
@[simp] theorem powerDisable_lines : (powerDisable s).lines = replay powerDisableEvents s.lines := rfl
@[simp] theorem powerDisable_seq : (powerDisable s).seq = s.seq := rfl
@[simp] theorem powerDisable_rdata : (powerDisable s).rdata = s.rdata := rfl
@[simp] theorem powerDisable_ready : (powerDisable s).ready = s.ready := rfl
@[simp] theorem powerDisable_held : (powerDisable s).held = s.held := rfl
@[simp] theorem powerDisable_nowMs : (powerDisable s).nowMs = s.nowMs := rfl
@[simp] theorem powerDisable_trace : (powerDisable s).trace = s.trace ++ powerDisableEvents := rfl
@[simp] theorem powerDisable_cfg : (powerDisable s).cfg = s.cfg := rfl
@[simp] theorem powerDisable_inputs : (powerDisable s).inputs = s.inputs := rfl

/-! ### `lazyInit` -/

@[simp] theorem lazyInit_pixelB : (lazyInit s).pixelB = s.pixelB := rfl
@[simp] theorem lazyInit_pixelG : (lazyInit s).pixelG = s.pixelG := rfl
@[simp] theorem lazyInit_pixelR : (lazyInit s).pixelR = s.pixelR := rfl
@[simp] theorem lazyInit_bright : (lazyInit s).bright = s.bright := rfl
@[simp] theorem lazyInit_linked : (lazyInit s).linked = true := rfl
@[simp] theorem lazyInit_phase : (lazyInit s).phase = s.phase := rfl
@[simp] theorem lazyInit_cycDeadline : (lazyInit s).cycDeadline = s.cycDeadline := rfl
@[simp] theorem lazyInit_cycArmed : (lazyInit s).cycArmed = s.cycArmed := rfl
@[simp] theorem lazyInit_result : (lazyInit s).result = s.result := rfl
@[simp] theorem lazyInit_ill : (lazyInit s).ill = s.ill := rfl
@[simp] theorem lazyInit_errw : (lazyInit s).errw = s.errw := rfl
@[simp] theorem lazyInit_busy : (lazyInit s).busy = s.busy := rfl
@[simp] theorem lazyInit_lines : (lazyInit s).lines = replay lazyInitEvents s.lines := rfl
@[simp] theorem lazyInit_seq : (lazyInit s).seq = s.seq := rfl
@[simp] theorem lazyInit_rdata : (lazyInit s).rdata = s.rdata := rfl
@[simp] theorem lazyInit_ready : (lazyInit s).ready = s.ready := rfl
@[simp] theorem lazyInit_held : (lazyInit s).held = s.held := rfl
@[simp] theorem lazyInit_nowMs : (lazyInit s).nowMs = s.nowMs := rfl
@[simp] theorem lazyInit_trace : (lazyInit s).trace = s.trace ++ lazyInitEvents := rfl
@[simp] theorem lazyInit_cfg : (lazyInit s).cfg = s.cfg := rfl
@[simp] theorem lazyInit_inputs : (lazyInit s).inputs = s.inputs := rfl

/-! ### `storePixel` -/

@[simp] theorem storePixel_pixelB (r g b : Byte) : (storePixel r g b s).pixelB = b := rfl
@[simp] theorem storePixel_pixelG (r g b : Byte) : (storePixel r g b s).pixelG = g := rfl
@[simp] theorem storePixel_pixelR (r g b : Byte) : (storePixel r g b s).pixelR = r := rfl
@[simp] theorem storePixel_bright (r g b : Byte) : (storePixel r g b s).bright = s.bright := rfl
@[simp] theorem storePixel_linked (r g b : Byte) : (storePixel r g b s).linked = s.linked := rfl
@[simp] theorem storePixel_phase (r g b : Byte) : (storePixel r g b s).phase = s.phase := rfl
@[simp] theorem storePixel_cycDeadline (r g b : Byte) : (storePixel r g b s).cycDeadline = s.cycDeadline := rfl
@[simp] theorem storePixel_cycArmed (r g b : Byte) : (storePixel r g b s).cycArmed = s.cycArmed := rfl
@[simp] theorem storePixel_result (r g b : Byte) : (storePixel r g b s).result = s.result := rfl
@[simp] theorem storePixel_ill (r g b : Byte) : (storePixel r g b s).ill = s.ill := rfl
@[simp] theorem storePixel_errw (r g b : Byte) : (storePixel r g b s).errw = s.errw := rfl
@[simp] theorem storePixel_busy (r g b : Byte) : (storePixel r g b s).busy = s.busy := rfl
@[simp] theorem storePixel_lines (r g b : Byte) : (storePixel r g b s).lines = s.lines := rfl
@[simp] theorem storePixel_seq (r g b : Byte) : (storePixel r g b s).seq = s.seq := rfl
@[simp] theorem storePixel_rdata (r g b : Byte) : (storePixel r g b s).rdata = s.rdata := rfl
@[simp] theorem storePixel_ready (r g b : Byte) : (storePixel r g b s).ready = s.ready := rfl
@[simp] theorem storePixel_held (r g b : Byte) : (storePixel r g b s).held = s.held := rfl
@[simp] theorem storePixel_nowMs (r g b : Byte) : (storePixel r g b s).nowMs = s.nowMs := rfl
@[simp] theorem storePixel_trace (r g b : Byte) : (storePixel r g b s).trace = s.trace := rfl
@[simp] theorem storePixel_cfg (r g b : Byte) : (storePixel r g b s).cfg = s.cfg := rfl
@[simp] theorem storePixel_inputs (r g b : Byte) : (storePixel r g b s).inputs = s.inputs := rfl

/-! ### `storeBright` -/

@[simp] theorem storeBright_pixelB (level : Byte) : (storeBright level s).pixelB = s.pixelB := rfl
@[simp] theorem storeBright_pixelG (level : Byte) : (storeBright level s).pixelG = s.pixelG := rfl
@[simp] theorem storeBright_pixelR (level : Byte) : (storeBright level s).pixelR = s.pixelR := rfl
@[simp] theorem storeBright_bright (level : Byte) : (storeBright level s).bright = level + 1#8 := rfl
@[simp] theorem storeBright_linked (level : Byte) : (storeBright level s).linked = s.linked := rfl
@[simp] theorem storeBright_phase (level : Byte) : (storeBright level s).phase = s.phase := rfl
@[simp] theorem storeBright_cycDeadline (level : Byte) : (storeBright level s).cycDeadline = s.cycDeadline := rfl
@[simp] theorem storeBright_cycArmed (level : Byte) : (storeBright level s).cycArmed = s.cycArmed := rfl
@[simp] theorem storeBright_result (level : Byte) : (storeBright level s).result = s.result := rfl
@[simp] theorem storeBright_ill (level : Byte) : (storeBright level s).ill = s.ill := rfl
@[simp] theorem storeBright_errw (level : Byte) : (storeBright level s).errw = s.errw := rfl
@[simp] theorem storeBright_busy (level : Byte) : (storeBright level s).busy = s.busy := rfl
@[simp] theorem storeBright_lines (level : Byte) : (storeBright level s).lines = s.lines := rfl
@[simp] theorem storeBright_seq (level : Byte) : (storeBright level s).seq = s.seq := rfl
@[simp] theorem storeBright_rdata (level : Byte) : (storeBright level s).rdata = s.rdata := rfl
@[simp] theorem storeBright_ready (level : Byte) : (storeBright level s).ready = s.ready := rfl
@[simp] theorem storeBright_held (level : Byte) : (storeBright level s).held = s.held := rfl
@[simp] theorem storeBright_nowMs (level : Byte) : (storeBright level s).nowMs = s.nowMs := rfl
@[simp] theorem storeBright_trace (level : Byte) : (storeBright level s).trace = s.trace := rfl
@[simp] theorem storeBright_cfg (level : Byte) : (storeBright level s).cfg = s.cfg := rfl
@[simp] theorem storeBright_inputs (level : Byte) : (storeBright level s).inputs = s.inputs := rfl

/-! ### `storeResult` -/

@[simp] theorem storeResult_pixelB (r g b : Byte) : (storeResult r g b s).pixelB = s.pixelB := rfl
@[simp] theorem storeResult_pixelG (r g b : Byte) : (storeResult r g b s).pixelG = s.pixelG := rfl
@[simp] theorem storeResult_pixelR (r g b : Byte) : (storeResult r g b s).pixelR = s.pixelR := rfl
@[simp] theorem storeResult_bright (r g b : Byte) : (storeResult r g b s).bright = s.bright := rfl
@[simp] theorem storeResult_linked (r g b : Byte) : (storeResult r g b s).linked = s.linked := rfl
@[simp] theorem storeResult_phase (r g b : Byte) : (storeResult r g b s).phase = s.phase := rfl
@[simp] theorem storeResult_cycDeadline (r g b : Byte) : (storeResult r g b s).cycDeadline = s.cycDeadline := rfl
@[simp] theorem storeResult_cycArmed (r g b : Byte) : (storeResult r g b s).cycArmed = s.cycArmed := rfl
@[simp] theorem storeResult_result (r g b : Byte) : (storeResult r g b s).result = packColor r g b := rfl
@[simp] theorem storeResult_ill (r g b : Byte) : (storeResult r g b s).ill = s.ill := rfl
@[simp] theorem storeResult_errw (r g b : Byte) : (storeResult r g b s).errw = s.errw := rfl
@[simp] theorem storeResult_busy (r g b : Byte) : (storeResult r g b s).busy = s.busy := rfl
@[simp] theorem storeResult_lines (r g b : Byte) : (storeResult r g b s).lines = s.lines := rfl
@[simp] theorem storeResult_seq (r g b : Byte) : (storeResult r g b s).seq = s.seq := rfl
@[simp] theorem storeResult_rdata (r g b : Byte) : (storeResult r g b s).rdata = s.rdata := rfl
@[simp] theorem storeResult_ready (r g b : Byte) : (storeResult r g b s).ready = s.ready := rfl
@[simp] theorem storeResult_held (r g b : Byte) : (storeResult r g b s).held = s.held := rfl
@[simp] theorem storeResult_nowMs (r g b : Byte) : (storeResult r g b s).nowMs = s.nowMs := rfl
@[simp] theorem storeResult_trace (r g b : Byte) : (storeResult r g b s).trace = s.trace := rfl
@[simp] theorem storeResult_cfg (r g b : Byte) : (storeResult r g b s).cfg = s.cfg := rfl
@[simp] theorem storeResult_inputs (r g b : Byte) : (storeResult r g b s).inputs = s.inputs := rfl

/-! ### `advanceWheel` -/

@[simp] theorem advanceWheel_pixelB (iv : Packed) : (advanceWheel iv s).pixelB = (wheel (s.phase + 1#8)).b := rfl
@[simp] theorem advanceWheel_pixelG (iv : Packed) : (advanceWheel iv s).pixelG = (wheel (s.phase + 1#8)).g := rfl
@[simp] theorem advanceWheel_pixelR (iv : Packed) : (advanceWheel iv s).pixelR = (wheel (s.phase + 1#8)).r := rfl
@[simp] theorem advanceWheel_bright (iv : Packed) : (advanceWheel iv s).bright = s.bright := rfl
@[simp] theorem advanceWheel_linked (iv : Packed) : (advanceWheel iv s).linked = s.linked := rfl
@[simp] theorem advanceWheel_phase (iv : Packed) : (advanceWheel iv s).phase = s.phase + 1#8 := rfl
@[simp] theorem advanceWheel_cycDeadline (iv : Packed) : (advanceWheel iv s).cycDeadline = s.nowMs + intervalMs iv := rfl
@[simp] theorem advanceWheel_cycArmed (iv : Packed) : (advanceWheel iv s).cycArmed = true := rfl
@[simp] theorem advanceWheel_result (iv : Packed) : (advanceWheel iv s).result = s.result := rfl
@[simp] theorem advanceWheel_ill (iv : Packed) : (advanceWheel iv s).ill = s.ill := rfl
@[simp] theorem advanceWheel_errw (iv : Packed) : (advanceWheel iv s).errw = s.errw := rfl
@[simp] theorem advanceWheel_busy (iv : Packed) : (advanceWheel iv s).busy = s.busy := rfl
@[simp] theorem advanceWheel_lines (iv : Packed) : (advanceWheel iv s).lines = s.lines := rfl
@[simp] theorem advanceWheel_seq (iv : Packed) : (advanceWheel iv s).seq = s.seq := rfl
@[simp] theorem advanceWheel_rdata (iv : Packed) : (advanceWheel iv s).rdata = s.rdata := rfl
@[simp] theorem advanceWheel_ready (iv : Packed) : (advanceWheel iv s).ready = s.ready := rfl
@[simp] theorem advanceWheel_held (iv : Packed) : (advanceWheel iv s).held = s.held := rfl
@[simp] theorem advanceWheel_nowMs (iv : Packed) : (advanceWheel iv s).nowMs = s.nowMs := rfl
@[simp] theorem advanceWheel_trace (iv : Packed) : (advanceWheel iv s).trace = s.trace := rfl
@[simp] theorem advanceWheel_cfg (iv : Packed) : (advanceWheel iv s).cfg = s.cfg := rfl
@[simp] theorem advanceWheel_inputs (iv : Packed) : (advanceWheel iv s).inputs = s.inputs := rfl

/-! ### `takeIllegal` -/

@[simp] theorem takeIllegal_pixelB (w : Word) : (takeIllegal w s).pixelB = s.pixelB := rfl
@[simp] theorem takeIllegal_pixelG (w : Word) : (takeIllegal w s).pixelG = s.pixelG := rfl
@[simp] theorem takeIllegal_pixelR (w : Word) : (takeIllegal w s).pixelR = s.pixelR := rfl
@[simp] theorem takeIllegal_bright (w : Word) : (takeIllegal w s).bright = s.bright := rfl
@[simp] theorem takeIllegal_linked (w : Word) : (takeIllegal w s).linked = s.linked := rfl
@[simp] theorem takeIllegal_phase (w : Word) : (takeIllegal w s).phase = s.phase := rfl
@[simp] theorem takeIllegal_cycDeadline (w : Word) : (takeIllegal w s).cycDeadline = s.cycDeadline := rfl
@[simp] theorem takeIllegal_cycArmed (w : Word) : (takeIllegal w s).cycArmed = s.cycArmed := rfl
@[simp] theorem takeIllegal_result (w : Word) : (takeIllegal w s).result = s.result := rfl
@[simp] theorem takeIllegal_ill (w : Word) : (takeIllegal w s).ill = true := rfl
@[simp] theorem takeIllegal_errw (w : Word) : (takeIllegal w s).errw = if s.ill then s.errw else w := rfl
@[simp] theorem takeIllegal_busy (w : Word) : (takeIllegal w s).busy = s.busy := rfl
@[simp] theorem takeIllegal_lines (w : Word) : (takeIllegal w s).lines = s.lines := rfl
@[simp] theorem takeIllegal_seq (w : Word) : (takeIllegal w s).seq = s.seq := rfl
@[simp] theorem takeIllegal_rdata (w : Word) : (takeIllegal w s).rdata = s.rdata := rfl
@[simp] theorem takeIllegal_ready (w : Word) : (takeIllegal w s).ready = s.ready := rfl
@[simp] theorem takeIllegal_held (w : Word) : (takeIllegal w s).held = s.held := rfl
@[simp] theorem takeIllegal_nowMs (w : Word) : (takeIllegal w s).nowMs = s.nowMs := rfl
@[simp] theorem takeIllegal_trace (w : Word) : (takeIllegal w s).trace = s.trace := rfl
@[simp] theorem takeIllegal_cfg (w : Word) : (takeIllegal w s).cfg = s.cfg := rfl
@[simp] theorem takeIllegal_inputs (w : Word) : (takeIllegal w s).inputs = s.inputs := rfl

/-! ### `startTransmit` -/

@[simp] theorem startTransmit_pixelB (w : Word) (n : Fin 3) : (startTransmit w n s).pixelB = s.pixelB := rfl
@[simp] theorem startTransmit_pixelG (w : Word) (n : Fin 3) : (startTransmit w n s).pixelG = s.pixelG := rfl
@[simp] theorem startTransmit_pixelR (w : Word) (n : Fin 3) : (startTransmit w n s).pixelR = s.pixelR := rfl
@[simp] theorem startTransmit_bright (w : Word) (n : Fin 3) : (startTransmit w n s).bright = s.bright := rfl
@[simp] theorem startTransmit_linked (w : Word) (n : Fin 3) : (startTransmit w n s).linked = s.linked := rfl
@[simp] theorem startTransmit_phase (w : Word) (n : Fin 3) : (startTransmit w n s).phase = s.phase := rfl
@[simp] theorem startTransmit_cycDeadline (w : Word) (n : Fin 3) : (startTransmit w n s).cycDeadline = s.cycDeadline := rfl
@[simp] theorem startTransmit_cycArmed (w : Word) (n : Fin 3) : (startTransmit w n s).cycArmed = s.cycArmed := rfl
@[simp] theorem startTransmit_result (w : Word) (n : Fin 3) : (startTransmit w n s).result = s.result := rfl
@[simp] theorem startTransmit_ill (w : Word) (n : Fin 3) : (startTransmit w n s).ill = s.ill := rfl
@[simp] theorem startTransmit_errw (w : Word) (n : Fin 3) : (startTransmit w n s).errw = s.errw := rfl
@[simp] theorem startTransmit_busy (w : Word) (n : Fin 3) : (startTransmit w n s).busy = true := rfl
@[simp] theorem startTransmit_lines (w : Word) (n : Fin 3) : (startTransmit w n s).lines = s.lines := rfl
@[simp] theorem startTransmit_seq (w : Word) (n : Fin 3) : (startTransmit w n s).seq = (
      { idlePos with cmd := w, step := if s.linked then .frame else .power, framesLeft := n } : SeqPos) := rfl
@[simp] theorem startTransmit_rdata (w : Word) (n : Fin 3) : (startTransmit w n s).rdata = s.rdata := rfl
@[simp] theorem startTransmit_ready (w : Word) (n : Fin 3) : (startTransmit w n s).ready = s.ready := rfl
@[simp] theorem startTransmit_held (w : Word) (n : Fin 3) : (startTransmit w n s).held = s.held := rfl
@[simp] theorem startTransmit_nowMs (w : Word) (n : Fin 3) : (startTransmit w n s).nowMs = s.nowMs := rfl
@[simp] theorem startTransmit_trace (w : Word) (n : Fin 3) : (startTransmit w n s).trace = s.trace := rfl
@[simp] theorem startTransmit_cfg (w : Word) (n : Fin 3) : (startTransmit w n s).cfg = s.cfg := rfl
@[simp] theorem startTransmit_inputs (w : Word) (n : Fin 3) : (startTransmit w n s).inputs = s.inputs := rfl

/-! ### `startPower` -/

@[simp] theorem startPower_pixelB (w : Word) : (startPower w s).pixelB = s.pixelB := rfl
@[simp] theorem startPower_pixelG (w : Word) : (startPower w s).pixelG = s.pixelG := rfl
@[simp] theorem startPower_pixelR (w : Word) : (startPower w s).pixelR = s.pixelR := rfl
@[simp] theorem startPower_bright (w : Word) : (startPower w s).bright = s.bright := rfl
@[simp] theorem startPower_linked (w : Word) : (startPower w s).linked = s.linked := rfl
@[simp] theorem startPower_phase (w : Word) : (startPower w s).phase = s.phase := rfl
@[simp] theorem startPower_cycDeadline (w : Word) : (startPower w s).cycDeadline = s.cycDeadline := rfl
@[simp] theorem startPower_cycArmed (w : Word) : (startPower w s).cycArmed = s.cycArmed := rfl
@[simp] theorem startPower_result (w : Word) : (startPower w s).result = s.result := rfl
@[simp] theorem startPower_ill (w : Word) : (startPower w s).ill = s.ill := rfl
@[simp] theorem startPower_errw (w : Word) : (startPower w s).errw = s.errw := rfl
@[simp] theorem startPower_busy (w : Word) : (startPower w s).busy = true := rfl
@[simp] theorem startPower_lines (w : Word) : (startPower w s).lines = s.lines := rfl
@[simp] theorem startPower_seq (w : Word) : (startPower w s).seq = (
      { idlePos with cmd := w, step := .power } : SeqPos) := rfl
@[simp] theorem startPower_rdata (w : Word) : (startPower w s).rdata = s.rdata := rfl
@[simp] theorem startPower_ready (w : Word) : (startPower w s).ready = s.ready := rfl
@[simp] theorem startPower_held (w : Word) : (startPower w s).held = s.held := rfl
@[simp] theorem startPower_nowMs (w : Word) : (startPower w s).nowMs = s.nowMs := rfl
@[simp] theorem startPower_trace (w : Word) : (startPower w s).trace = s.trace := rfl
@[simp] theorem startPower_cfg (w : Word) : (startPower w s).cfg = s.cfg := rfl
@[simp] theorem startPower_inputs (w : Word) : (startPower w s).inputs = s.inputs := rfl

/-! ### `portRead` -/

@[simp] theorem portRead_pixelB (a : PortAddr) : (portRead a s).pixelB = s.pixelB := rfl
@[simp] theorem portRead_pixelG (a : PortAddr) : (portRead a s).pixelG = s.pixelG := rfl
@[simp] theorem portRead_pixelR (a : PortAddr) : (portRead a s).pixelR = s.pixelR := rfl
@[simp] theorem portRead_bright (a : PortAddr) : (portRead a s).bright = s.bright := rfl
@[simp] theorem portRead_linked (a : PortAddr) : (portRead a s).linked = s.linked := rfl
@[simp] theorem portRead_phase (a : PortAddr) : (portRead a s).phase = s.phase := rfl
@[simp] theorem portRead_cycDeadline (a : PortAddr) : (portRead a s).cycDeadline = s.cycDeadline := rfl
@[simp] theorem portRead_cycArmed (a : PortAddr) : (portRead a s).cycArmed = s.cycArmed := rfl
@[simp] theorem portRead_result (a : PortAddr) : (portRead a s).result = s.result := rfl
@[simp] theorem portRead_ill (a : PortAddr) : (portRead a s).ill = s.ill := rfl
@[simp] theorem portRead_errw (a : PortAddr) : (portRead a s).errw = s.errw := rfl
@[simp] theorem portRead_busy (a : PortAddr) : (portRead a s).busy = s.busy := rfl
@[simp] theorem portRead_lines (a : PortAddr) : (portRead a s).lines = s.lines := rfl
@[simp] theorem portRead_seq (a : PortAddr) : (portRead a s).seq = s.seq := rfl
@[simp] theorem portRead_rdata (a : PortAddr) : (portRead a s).rdata = portView a s := rfl
@[simp] theorem portRead_ready (a : PortAddr) : (portRead a s).ready = true := rfl
@[simp] theorem portRead_held (a : PortAddr) : (portRead a s).held = s.held := rfl
@[simp] theorem portRead_nowMs (a : PortAddr) : (portRead a s).nowMs = s.nowMs := rfl
@[simp] theorem portRead_trace (a : PortAddr) : (portRead a s).trace = s.trace := rfl
@[simp] theorem portRead_cfg (a : PortAddr) : (portRead a s).cfg = s.cfg := rfl
@[simp] theorem portRead_inputs (a : PortAddr) : (portRead a s).inputs = s.inputs := rfl

/-! ### `tickDone` -/

@[simp] theorem tickDone_pixelB : (tickDone s).pixelB = s.pixelB := rfl
@[simp] theorem tickDone_pixelG : (tickDone s).pixelG = s.pixelG := rfl
@[simp] theorem tickDone_pixelR : (tickDone s).pixelR = s.pixelR := rfl
@[simp] theorem tickDone_bright : (tickDone s).bright = s.bright := rfl
@[simp] theorem tickDone_linked : (tickDone s).linked = s.linked := rfl
@[simp] theorem tickDone_phase : (tickDone s).phase = s.phase := rfl
@[simp] theorem tickDone_cycDeadline : (tickDone s).cycDeadline = s.cycDeadline := rfl
@[simp] theorem tickDone_cycArmed : (tickDone s).cycArmed = s.cycArmed := rfl
@[simp] theorem tickDone_result : (tickDone s).result = s.result := rfl
@[simp] theorem tickDone_ill : (tickDone s).ill = s.ill := rfl
@[simp] theorem tickDone_errw : (tickDone s).errw = s.errw := rfl
@[simp] theorem tickDone_busy : (tickDone s).busy = false := rfl
@[simp] theorem tickDone_lines : (tickDone s).lines = s.lines := rfl
@[simp] theorem tickDone_seq : (tickDone s).seq = idlePos := rfl
@[simp] theorem tickDone_rdata : (tickDone s).rdata = s.rdata := rfl
@[simp] theorem tickDone_ready : (tickDone s).ready = s.ready := rfl
@[simp] theorem tickDone_held : (tickDone s).held = s.held := rfl
@[simp] theorem tickDone_nowMs : (tickDone s).nowMs = s.nowMs := rfl
@[simp] theorem tickDone_trace : (tickDone s).trace = s.trace := rfl
@[simp] theorem tickDone_cfg : (tickDone s).cfg = s.cfg := rfl
@[simp] theorem tickDone_inputs : (tickDone s).inputs = s.inputs := rfl

end Sys2Proof.Machine
end

