-- ==== Sys2Proof/Laws/Ops.lean ====
section
/-!
SUPPORT. One lemma per shared operation: what it does, once, so that later proofs cite it and unfold nothing.
-/

namespace Sys2Proof.Machine

/-! ### Replaying events -/

@[simp] theorem replay_nil (l : Lines) : replay [] l = l := rfl

@[simp] theorem replay_cons (e : WireEvent) (es : List WireEvent) (l : Lines) :
    replay (e :: es) l = replay es (applyEvent l e) := rfl

@[simp] theorem replay_append (es fs : List WireEvent) (l : Lines) :
    replay (es ++ fs) l = replay fs (replay es l) :=
  List.foldl_append

theorem emitAll_append (es fs : List WireEvent) (s : State) :
    emitAll (es ++ fs) s = emitAll fs (emitAll es s) := by
  simp [emitAll]

@[simp] theorem emitAll_nil (s : State) : emitAll [] s = s := by simp [emitAll]

theorem replay_powerEnableEvents (l : Lines) :
    replay powerEnableEvents l = { l with pwrN := false, dataMode := .out, clkMode := .out } := rfl

theorem replay_powerDisableEvents (l : Lines) :
    replay powerDisableEvents l = { l with pwrN := true, dataMode := .inPd, clkMode := .inPd } := rfl

theorem replay_lazyInitEvents (l : Lines) :
    replay lazyInitEvents l = { pwrN := false, dataMode := .out, clkMode := .out, dataLat := false, clkLat := false } := rfl

theorem replay_bitEvents (b : Bool) (l : Lines) :
    replay (bitEvents b) l = { l with dataLat := b, clkLat := false } := rfl

theorem replay_byteEvents (v : Byte) (l : Lines) :
    replay (byteEvents v) l = { l with dataLat := v.getLsbD 0, clkLat := false } := by
  simp [byteEvents, bitsMsbFirst, replay_bitEvents, applyEvent]

/-- A run of bytes leaves the last bit of the last byte on the data latch and the clock latch low (R91). -/
theorem replay_bytesEvents_concat (vs : List Byte) (v : Byte) (l : Lines) :
    replay (bytesEvents (vs ++ [v])) l = { l with dataLat := v.getLsbD 0, clkLat := false } := by
  have keep : ∀ vs : List Byte, ∀ l : Lines, ∃ d c, replay (bytesEvents vs) l = { l with dataLat := d, clkLat := c } := by
    intro vs
    induction vs with
    | nil => exact fun l => ⟨l.dataLat, l.clkLat, rfl⟩
    | cons u us ih =>
      intro l
      obtain ⟨d, c, h⟩ := ih (replay (byteEvents u) l)
      exact ⟨d, c, by simpa [bytesEvents, replay_byteEvents] using h⟩
  obtain ⟨d, c, h⟩ := keep vs l
  rw [show bytesEvents (vs ++ [v]) = bytesEvents vs ++ byteEvents v by simp [bytesEvents], replay_append, h, replay_byteEvents]

/-- After a frame: the data latch 1 from the end frame, the clock latch 0 (R91). -/
theorem replay_frame (s : State) (l : Lines) :
    replay (bytesEvents (frame s)) l = { l with dataLat := true, clkLat := false } := by
  rw [show frame s = (frame s).dropLast ++ [0xFF#8] from rfl, replay_bytesEvents_concat]
  rfl

/-! ### Transmit -/

@[simp] theorem frame_emitAll (es : List WireEvent) (s : State) : frame (emitAll es s) = frame s := rfl

@[simp] theorem frame_lazyInit (s : State) : frame (lazyInit s) = frame s := rfl

/-- Transmit, whole (R78, R79, R91). -/
theorem transmit_eq (s : State) : transmit s = afterTransmit s := by
  have lines : replay (bytesEvents (frame s)) (if s.linked then s.lines else replay lazyInitEvents s.lines)
      = linesAfterTransmit s := by
    rw [replay_frame]
    cases h : s.linked <;> simp [linesAfterTransmit, replay_lazyInitEvents, h]
  unfold transmit afterTransmit
  rw [← lines]
  cases h : s.linked
  · have hf : frame (lazyInit s) = frame s := rfl
    simp only [Bool.false_eq_true, if_false, hf]
    simp [sendBytes, emitAll, transmitEvents, lazyInit, h]
  · simp [sendBytes, emitAll, transmitEvents, h]

theorem transmit_linked (s : State) : (transmit s).linked = true := by rw [transmit_eq]; rfl

theorem transmit_lines (s : State) : (transmit s).lines = linesAfterTransmit s := by rw [transmit_eq]; rfl

theorem transmit_trace (s : State) : (transmit s).trace = s.trace ++ transmitEvents s := by rw [transmit_eq]; rfl

/-- Each byte sent is 49 events (R91). -/
theorem length_bytesEvents (vs : List Byte) : (bytesEvents vs).length = 49 * vs.length := by
  induction vs with
  | nil => rfl
  | cons v vs ih =>
    rw [show bytesEvents (v :: vs) = byteEvents v ++ bytesEvents vs from rfl, List.length_append, ih,
      show (byteEvents v).length = 49 from rfl, List.length_cons]
    ring

/-- Transmit writes no register but `linked`, the lines and the trace. -/
theorem transmit_frame (s : State) :
    transmit s = { s with linked := (transmit s).linked, lines := (transmit s).lines, trace := (transmit s).trace } := by
  rw [transmit_eq]; rfl

/-- A Transmit sends nine bytes. -/
theorem bytesSent_append (es fs : List WireEvent) : bytesSent (es ++ fs) = bytesSent es + bytesSent fs :=
  List.count_append

theorem bytesSent_bytesEvents (vs : List Byte) : bytesSent (bytesEvents vs) = vs.length := by
  induction vs with
  | nil => rfl
  | cons v vs ih =>
    rw [show bytesEvents (v :: vs) = byteEvents v ++ bytesEvents vs from rfl, bytesSent_append, ih,
      show bytesSent (byteEvents v) = 1 from rfl, List.length_cons, Nat.add_comm]

theorem bytesSent_transmitEvents (s : State) : bytesSent (transmitEvents s) = frameBytes := by
  rw [transmitEvents, bytesSent_append, bytesSent_bytesEvents]
  cases s.linked <;> rfl

/-- One more event: a byte is sent with its gap (R89). -/
theorem bytesSent_one (e : WireEvent) (es : List WireEvent) :
    bytesSent (es ++ [e]) = bytesSent es + (if e = .wait .gap then 1 else 0) := by
  rw [bytesSent_append]
  congr 1
  cases e with
  | wait t => cases t <;> rfl
  | pwr _ => simp [bytesSent]
  | mode _ _ => simp [bytesSent]
  | set _ _ => simp [bytesSent]

/-! ### The multiplier -/

/-- `scale` on natural numbers, but at the bypass (R85). -/
theorem scale_toNat {x s : Byte} (h : s ≠ 0#8) : (scale x s).toNat = x.toNat * s.toNat / 256 := by
  have hx := x.isLt
  have hs := s.isLt
  have bound : x.toNat * s.toNat ≤ 255 * 255 := Nat.mul_le_mul (by omega) (by omega)
  simp only [scale, h, if_false, BitVec.toNat_ofNat, Nat.shiftRight_eq_div_pow]
  omega

/-- The bypass (R85). -/
@[simp] theorem scale_bypass (x : Byte) : scale x 0#8 = x := by simp [scale]

/-! ### Decoding -/

/-- Every command a word decodes to, with its opcode and fields. -/
theorem decode_inv {w : Word} {i : Instr} (h : decode w = .ok i) :
    (opField w = 0x01#8 ∧ i = .setPwr (enField w))
      ∨ (opField w = 0x02#8 ∧ i = .setBri (blueField w))
      ∨ (opField w = 0x03#8 ∧ i = .setPix (redField w) (greenField w) (blueField w))
      ∨ (opField w = 0x04#8 ∧ i = .setPixP (opdField w))
      ∨ (opField w = 0x05#8 ∧ i = .clear)
      ∨ (opField w = 0x06#8 ∧ i = .showPixel)
      ∨ (opField w = 0x07#8 ∧ i = .cycle (opdField w))
      ∨ (opField w = 0x08#8 ∧ i = .color (redField w) (greenField w) (blueField w)) := by
  unfold decode at h
  split_ifs at h with h1 h2 h3 h4 h5 h6 h7 h8 <;> cases h <;> simp [*]

/-- A decoded command's opcode is the word's. -/
theorem opcode_of_decode {w : Word} {i : Instr} (h : decode w = .ok i) : opField w = opcode i := by
  rcases decode_inv h with ⟨ho, rfl⟩ | ⟨ho, rfl⟩ | ⟨ho, rfl⟩ | ⟨ho, rfl⟩ | ⟨ho, rfl⟩ | ⟨ho, rfl⟩ | ⟨ho, rfl⟩ | ⟨ho, rfl⟩ <;> exact ho

/-- Decoding a SETPWR word reads its bit 0. -/
theorem enField_of_decode {w : Word} {en : Bool} (h : decode w = .ok (.setPwr en)) : enField w = en := by
  rcases decode_inv h with ⟨_, hi⟩ | ⟨_, hi⟩ | ⟨_, hi⟩ | ⟨_, hi⟩ | ⟨_, hi⟩ | ⟨_, hi⟩ | ⟨_, hi⟩ | ⟨_, hi⟩ <;> cases hi
  rfl

/-! ### Steps -/

/-- With nothing presented the block runs on by itself. -/
theorem step_of_no_input {s : State} (h : s.inputs = []) : step s = .next (advance s) := by simp [step, h]

/-- With an input next, a step presents it. -/
theorem step_of_input {s : State} {x : Input} {rest : List Input} (h : s.inputs = x :: rest) : step s = present x rest s := by
  simp [step, h]

/-! ### Running a word -/

/-- Every command answers a next state, and so does an illegal word (R103, R104). -/
theorem runWord_next (w : Word) (s : State) : ∃ t, runWord w s = .next t := by
  unfold runWord
  split
  · rename_i i _
    cases i <;> exact ⟨_, rfl⟩
  · exact ⟨_, rfl⟩

end Sys2Proof.Machine
end

