-- ==== Sys2Proof/Laws/PerInstr.lean ====
section
/-!
SUPPORT. One lemma per command: the shape of its encoding.
-/

namespace Sys2Proof.Laws.EncodeShape

open Sys2Proof

/-- The command's word carries its opcode of R59 in bits 31:24, its ignored bits are 0 (R64), and no ignored bit is an opcode bit
(R55, R56). -/
def Statement (i : Instr) : Prop :=
  opField (encode i) = opcode i ∧ encode i &&& ignoredMask i = 0#32 ∧ opField (ignoredMask i) = 0#8

/-- A word that is an opcode over an operand has no bit of a mask whose opcode part is 0 and whose operand part misses the operand. -/
theorem append_and_mask (a : Byte) (b m : Packed) (h : b &&& m = 0#24) :
    (a ++ b : Word) &&& ((0#8 ++ m : Word)) = 0#32 := by
  have parts := BitVec.and_append (x₁ := a) (x₂ := 0#8) (y₁ := b) (y₂ := m)
  refine parts.trans ?_
  rw [h]
  simp

theorem setPwr (en : Bool) : Statement (.setPwr en) :=
  ⟨opField_encode _, append_and_mask _ _ 0xFFFFFE#24 (by cases en <;> rfl), by simp [ignoredMask, opField]⟩

theorem setBri (level : Byte) : Statement (.setBri level) := by
  refine ⟨opField_encode _, append_and_mask _ _ 0xFFFF00#24 ?_, by simp [ignoredMask, opField]⟩
  ext k hk
  have mask : ∀ j : Fin 24, j.val < 8 → (0xFFFF00#24).getLsbD j.val = false := by decide
  by_cases h : k < 8
  · have := mask ⟨k, hk⟩ h
    rw [BitVec.getElem_and, ← BitVec.getLsbD_eq_getElem (x := 0xFFFF00#24), this]
    simp
  · have : level.getLsbD k = false := BitVec.getLsbD_of_ge _ _ (by omega)
    simp [operand, this]

theorem setPix (r g b : Byte) : Statement (.setPix r g b) := ⟨opField_encode _, by simp [ignoredMask], by simp [ignoredMask, opField]⟩

theorem setPixP (packed : Packed) : Statement (.setPixP packed) := ⟨opField_encode _, by simp [ignoredMask], by simp [ignoredMask, opField]⟩

theorem clear : Statement .clear := ⟨rfl, rfl, rfl⟩

theorem showPixel : Statement .showPixel := ⟨rfl, rfl, rfl⟩

theorem cycle (interval : Packed) : Statement (.cycle interval) := ⟨opField_encode _, by simp [ignoredMask], by simp [ignoredMask, opField]⟩

theorem color (r g b : Byte) : Statement (.color r g b) := ⟨opField_encode _, by simp [ignoredMask], by simp [ignoredMask, opField]⟩

end Sys2Proof.Laws.EncodeShape
end

