-- ==== Sys2Proof/Laws/Sequencer.lean ====
section
/-!
SUPPORT. The sequencer's ticks in runs: a bit, a byte, a frame, the power events, lazy initialisation, a whole Transmit; and a run of
the machine with nothing presented as a run of ticks. Each says once what those ticks do.
-/

namespace Sys2Proof.Machine

/-- A state with the sequencer at a position. -/
def atPos (p : SeqPos) (s : State) : State := { s with seq := p }

/-- A position in FRAME. -/
def framePos (cmd : Word) (k : Fin 3) (byte : Fin 9) (bit : Fin 8) (sub : Fin 7) : SeqPos :=
  { cmd := cmd, step := .frame, framesLeft := k, byte := byte, bit := bit, sub := sub }

/-- Six ticks send a bit (R88). -/
theorem ticks_bit (cmd k byte bit) (s : State) :
    tick^[6] (atPos (framePos cmd k byte bit 0) s) =
      atPos (if bit = 0 then framePos cmd k byte 0 6 else framePos cmd k byte (bit - 1) 0)
        (emitAll (bitEvents (((frame s).getD byte 0#8).getLsbD bit)) s) := by
  simp [Function.iterate_succ, tick, tickFrame, frameEvent, nextFramePos, framePos, atPos, bitEvents, emit, emitAll, applyEvent, frame]
  split <;> simp_all

/-- The tick after a byte's last bit is its gap (R89). -/
theorem ticks_gap (cmd k byte) (s : State) :
    tick^[1] (atPos (framePos cmd k byte 0 6) s) =
      atPos (nextFramePos (framePos cmd k byte 0 6)) (emitAll [.wait .gap] s) := by
  simp [tick, tickFrame, frameEvent, framePos, atPos, emit, emitAll]

@[simp] theorem frame_atPos (p s) : frame (atPos p s) = frame s := rfl

/-- The events of the bits `j` down to 0 of a byte, and its gap. -/
def tailEvents (v : Byte) : ℕ → List WireEvent
  | 0 => bitEvents (v.getLsbD 0) ++ [.wait .gap]
  | j + 1 => bitEvents (v.getLsbD (j + 1)) ++ tailEvents v j

theorem ticks_tail (cmd k byte) (j : ℕ) (hj : j < 8) (s : State) :
    tick^[6 * j + 7] (atPos (framePos cmd k byte ⟨j, hj⟩ 0) s) =
      atPos (nextFramePos (framePos cmd k byte 0 6)) (emitAll (tailEvents ((frame s).getD byte 0#8) j) s) := by
  induction j generalizing s with
  | zero =>
    refine (Function.iterate_add_apply tick 1 6 _).trans ?_
    rw [tailEvents, emitAll_append, ticks_bit, if_pos (by rfl), ticks_gap]
  | succ j ih =>
    have hb : (⟨j + 1, hj⟩ : Fin 8) ≠ 0 := by simp [Fin.ext_iff]
    have hm : (⟨j + 1, hj⟩ : Fin 8) - 1 = ⟨j, by omega⟩ := by
      rw [Fin.ext_iff, Fin.sub_def]; simp; omega
    have := ih (by omega) (emitAll (bitEvents (((frame s).getD byte 0#8).getLsbD (j + 1))) s)
    rw [frame_emitAll] at this
    rw [tailEvents, emitAll_append, show 6 * (j + 1) + 7 = (6 * j + 7) + 6 by ring, Function.iterate_add_apply, ticks_bit,
      if_neg hb, hm, this]

/-- 49 ticks send a byte (R91). -/
theorem ticks_byte (cmd k byte) (s : State) :
    tick^[49] (atPos (framePos cmd k byte 7 0) s) =
      atPos (nextFramePos (framePos cmd k byte 0 6)) (emitAll (byteEvents ((frame s).getD byte 0#8)) s) :=
  ticks_tail cmd k byte 7 (by decide) s

theorem ticks_bytes (cmd k) (j : ℕ) (hj : j ≤ 8) (s : State) :
    tick^[49 * (j + 1)] (atPos (framePos cmd k ⟨8 - j, by omega⟩ 7 0) s) =
      atPos (nextFramePos (framePos cmd k 8 0 6)) (emitAll (bytesEvents ((frame s).drop (8 - j))) s) := by
  induction j generalizing s with
  | zero => exact ticks_byte cmd k 8 s
  | succ j ih =>
    have hd : (frame s).drop (8 - (j + 1)) = (frame s).getD (8 - (j + 1)) 0#8 :: (frame s).drop (8 - j) := by
      have hl : 8 - (j + 1) < (frame s).length := by simp [frame]; omega
      rw [List.drop_eq_getElem_cons hl, List.getD_eq_getElem _ _ hl, show 8 - (j + 1) + 1 = 8 - j by omega]
    rw [hd, show bytesEvents ((frame s).getD (8 - (j + 1)) 0#8 :: (frame s).drop (8 - j)) =
      byteEvents ((frame s).getD (8 - (j + 1)) 0#8) ++ bytesEvents ((frame s).drop (8 - j)) from rfl, emitAll_append,
      show 49 * (j + 1 + 1) = 49 * (j + 1) + 49 by ring]
    rw [Function.iterate_add_apply, ticks_byte]
    have hn : nextFramePos (framePos cmd k ⟨8 - (j + 1), by omega⟩ 0 6) = framePos cmd k ⟨8 - j, by omega⟩ 7 0 := by
      have hlt : (⟨8 - (j + 1), by omega⟩ : Fin 9) < 8 := by rw [Fin.lt_def]; show 8 - (j + 1) < 8; omega
      have hs : (⟨8 - (j + 1), by omega⟩ : Fin 9) + 1 = ⟨8 - j, by omega⟩ := by
        rw [Fin.ext_iff, Fin.add_def]; show (8 - (j + 1) + 1) % 9 = 8 - j; omega
      simp only [nextFramePos, framePos, hlt, hs, if_true]
      rfl
    have := ih (by omega) (emitAll (byteEvents ((frame s).getD (8 - (j + 1)) 0#8)) s)
    rw [frame_emitAll] at this
    rw [hn, this]

/-- 441 ticks send a frame (R91). -/
theorem ticks_frame (cmd k) (s : State) :
    tick^[441] (atPos (framePos cmd k 0 7 0) s) =
      atPos (nextFramePos (framePos cmd k 8 0 6)) (emitAll (bytesEvents (frame s)) s) :=
  ticks_bytes cmd k 8 le_rfl s

/-! ### Whole commands, and runs of the machine -/

/-- Only in POWER is a block unlinking. -/
theorem not_unlinking {s : State} (h : s.seq.step ≠ .power) : ¬Unlinking s := fun hu => h hu.1

/-- In POWER after the three events: `linked` is cleared (R69). -/
theorem tickPower_unlink {s : State} (h : s.seq.sub = 3) :
    tickPower s = { s with linked := false, seq := { s.seq with step := .done, sub := 0 } } := if_pos h

/-- In POWER before that: the power event at `seq_sub` (R68, R69). -/
theorem tickPower_event {s : State} (h : s.seq.sub ≠ 3) :
    tickPower s = { emit (powerEvent (seqPowerOff s) s.seq.sub) s with seq := nextPowerPos s } := if_neg h

/-- A tick writes `linked`, the lines, the trace, the position and `busy`, and nothing else (R48 (b)). -/
theorem tick_frame (s : State) :
    tick s = { s with
      linked := (tick s).linked, lines := (tick s).lines, trace := (tick s).trace, seq := (tick s).seq, busy := (tick s).busy } := by
  unfold tick
  split
  · unfold tickPower
    split_ifs <;> rfl
  · unfold tickInit
    split_ifs <;> rfl
  · rfl
  · rfl
  · rfl

@[simp] theorem tick_inputs (s : State) : (tick s).inputs = s.inputs := by rw [tick_frame]
@[simp] theorem tick_held (s : State) : (tick s).held = s.held := by rw [tick_frame]
@[simp] theorem tick_ready (s : State) : (tick s).ready = s.ready := by rw [tick_frame]
@[simp] theorem tick_ill (s : State) : (tick s).ill = s.ill := by rw [tick_frame]
@[simp] theorem tick_errw (s : State) : (tick s).errw = s.errw := by rw [tick_frame]
@[simp] theorem tick_nowMs (s : State) : (tick s).nowMs = s.nowMs := by rw [tick_frame]
@[simp] theorem tick_cfg (s : State) : (tick s).cfg = s.cfg := by rw [tick_frame]

/-- What a tick does to the wire: it emits some events, in order, and the lines are what they have made of them (R90). -/
theorem tick_events (s : State) : ∃ es, (tick s).trace = s.trace ++ es ∧ (tick s).lines = replay es s.lines := by
  have none (t : State) (ht : t.trace = s.trace) (hl : t.lines = s.lines) : ∃ es, t.trace = s.trace ++ es ∧ t.lines = replay es s.lines :=
    ⟨[], by rw [ht, List.append_nil], hl⟩
  unfold tick
  split
  · unfold tickPower
    split_ifs
    · exact none _ rfl rfl
    · exact ⟨[powerEvent (seqPowerOff s) s.seq.sub], rfl, rfl⟩
  · unfold tickInit
    split_ifs
    · exact ⟨[.set .data false], rfl, rfl⟩
    · exact ⟨[.set .clk false], rfl, rfl⟩
    · exact ⟨[.wait .settle], rfl, rfl⟩
    · exact none _ rfl rfl
  · exact ⟨[frameEvent s], rfl, rfl⟩
  · exact none _ rfl rfl
  · exact none _ rfl rfl

theorem tick_of_idle {s : State} (h : s.seq.step = .idle ∨ s.seq.step = .done) : (tick s).seq.step = .idle := by
  rcases h with h | h <;> simp [tick, h, idlePos]

theorem tick_busy {s : State} (h : s.seq.step ≠ .idle) (h' : s.seq.step ≠ .done) : (tick s).busy = s.busy := by
  unfold tick
  split
  · unfold tickPower
    split_ifs <;> rfl
  · unfold tickInit
    split_ifs <;> rfl
  · rfl
  · exact absurd ‹_› h'
  · exact absurd ‹_› h

/-- On the way to DONE `busy` stays 1. -/
theorem ticks_live {s : State} {n : ℕ} (hn : (tick^[n] s).seq.step = .done) (hb : s.busy = true) :
    ∀ k ≤ n, (tick^[k] s).busy = true ∧ (tick^[k] s).seq.step ≠ .idle := by
  induction n generalizing s with
  | zero => intro k hk; obtain rfl : k = 0 := by omega
            simp at hn; simp [hb, hn]
  | succ n ih =>
    have idle : ∀ m (t : State), t.seq.step = .idle → (tick^[m] t).seq.step = .idle := by
      intro m; induction m with
      | zero => exact fun t h => h
      | succ m ihm => exact fun t h => ihm _ (tick_of_idle (.inl h))
    have h0 : s.seq.step ≠ .idle ∧ s.seq.step ≠ .done := by
      constructor <;> intro h <;> rw [Function.iterate_succ_apply, idle n _ (tick_of_idle (by simp [h]))] at hn <;> cases hn
    intro k hk
    cases k with
    | zero => exact ⟨hb, h0.1⟩
    | succ k => exact ih hn (by rw [tick_busy h0.1 h0.2, hb]) k (by omega)

theorem step_tick {s : State} (h : s.inputs = []) (hb : s.busy = true) : step s = .next (tick s) := by
  simp [step, h, advance, hb]

/-- With nothing presented, a run of a busy block is its ticks. -/
theorem run_ticks {n : ℕ} {s : State} (h : s.inputs = []) (hb : ∀ k < n, (tick^[k] s).busy = true) :
    Host.Core.run Sys2Proof.core n s = .next (tick^[n] s) := by
  induction n generalizing s with
  | zero => rfl
  | succ n ih =>
    have h1 : Sys2Proof.core.step s = .next (tick s) := step_tick h (hb 0 (by omega))
    have h2 : Host.Core.run Sys2Proof.core (n + 1) s = Host.Core.run Sys2Proof.core n (tick s) := by
      simp only [Host.Core.run]; rw [h1]
    rw [h2, ih (by rw [tick_inputs, h]) (fun k hk => hb (k + 1) (by omega))]; rfl

/-- The position after a command's last event. -/
def donePos (cmd : Word) : SeqPos := { cmd := cmd, step := .done, framesLeft := 0, byte := 0, bit := 7, sub := 0 }

theorem ticks_frames1 (cmd) (s : State) : tick^[441] (atPos (framePos cmd 1 0 7 0) s) = atPos (donePos cmd) (emitAll (bytesEvents (frame s)) s) := by
  rw [ticks_frame]; rfl

theorem ticks_frames2 (cmd) (s : State) : tick^[882] (atPos (framePos cmd 2 0 7 0) s) = atPos (donePos cmd) (emitAll (bytesEvents (frame s)) (emitAll (bytesEvents (frame s)) s)) := by
  rw [show (882:ℕ) = 441 + 441 from rfl, Function.iterate_add_apply, ticks_frame]
  rw [show nextFramePos (framePos cmd 2 8 0 6) = framePos cmd 1 0 7 0 from rfl, ticks_frames1, frame_emitAll]

/-- Seven ticks run lazy initialisation (R79). -/
theorem ticks_power (cmd k) (s : State) (hc : opField cmd ≠ 0x01#8) :
    tick^[7] (atPos { idlePos with cmd := cmd, step := .power, framesLeft := k } s) = atPos (framePos cmd k 0 7 0) (lazyInit s) := by
  simp [Function.iterate_succ, tick, tickPower, nextPowerPos, tickInit, seqPowerOff, seqIsSetPwr, powerEvent, beq_eq_false_iff_ne.mpr hc, atPos, idlePos, emit, emitAll, lazyInit, lazyInitEvents, powerEnableEvents, framePos]

/-- The ticks of SETPWR reach DONE with its whole effect (R67): its three events, and the clearing of `linked` if it powers off. -/
theorem ticks_setPwr (cmd) (s : State) (hc : opField cmd = 0x01#8) :
    tick^[if enField cmd then 3 else 4] (atPos { idlePos with cmd := cmd, step := .power } s) =
      atPos (donePos cmd) (if enField cmd then powerEnable s else powerDisable s) := by
  cases h : enField cmd <;>
    simp [Function.iterate_succ, tick, tickPower, nextPowerPos, seqPowerOff, seqIsSetPwr, powerEvent, hc, h, atPos, idlePos,
      emit, emitAll, powerEnable, powerDisable, powerEnableEvents, powerDisableEvents, donePos]

/-- The ticks of a Transmit of one frame or two reach DONE with its whole effect (R78). -/
theorem ticks_transmit (cmd) (k : Fin 3) (s : State) (hk : k = 1 ∨ k = 2) (hc : opField cmd ≠ 0x01#8) :
    ∃ n ≤ 889, tick^[n] (startTransmit cmd k s) = atPos (donePos cmd) { (if k = 2 then transmit (transmit s) else transmit s) with busy := true } := by
  have ht : ∀ t : State, t.linked = true → transmit t = emitAll (bytesEvents (frame t)) t := by
    intro t h; simp [transmit, h, sendBytes]
  have hf : frame (transmit s) = frame s := by rw [transmit_eq]; rfl
  have go : ∀ t : State, t.linked = true → frame t = frame s → transmit s = transmit t →
     ∃ n ≤ 882, tick^[n] (atPos (framePos cmd k 0 7 0) { t with busy := true }) =
      atPos (donePos cmd) { (if k = 2 then transmit (transmit s) else transmit s) with busy := true } := by
    intro t hl hft hts
    rw [hts]
    have hb : frame { t with busy := true } = frame t := rfl
    rcases hk with rfl | rfl
    · refine ⟨441, by omega, ?_⟩
      rw [ticks_frames1, if_neg (by decide), ht t hl, hb]; simp only [emitAll, atPos]
    · refine ⟨882, by omega, ?_⟩
      rw [ticks_frames2, if_pos rfl, ht _ (transmit_linked t), ht t hl, frame_emitAll, hb]; simp only [emitAll, atPos]
  cases hl : s.linked
  · obtain ⟨n, hn, h⟩ := go (lazyInit s) rfl rfl (by simp [transmit, hl, lazyInit])
    refine ⟨n + 7, by omega, ?_⟩
    rw [Function.iterate_add_apply, ← h]
    congr 1
    have := ticks_power cmd k { s with busy := true } hc
    rw [show startTransmit cmd k s = atPos { idlePos with cmd := cmd, step := .power, framesLeft := k } { s with busy := true } by
      simp [startTransmit, hl, atPos], this]
    rfl
  · obtain ⟨n, hn, h⟩ := go s hl rfl rfl
    refine ⟨n, by omega, ?_⟩
    rw [← h]; congr 1
    simp [startTransmit, hl, atPos, framePos, idlePos]

end Sys2Proof.Machine
end

