-- ==== Sys2Proof/Tests/Slice0.lean ====
section
/-!
SUPPORT. The model's own tests. Every expected value is the spec's (95_test_vectors.md, by section, or the rule named), never the
model's answer. First ill-formed terms; then written words decoded; then one small step per instruction; then one witness per
statement with hypotheses, a state and operands that meet them.
-/

namespace Sys2Proof.Tests

open Sys2Proof Sys2Proof.Machine

/-! ### Helpers -/

/-- A view of the state after an outcome; none where the machine stopped. -/
def seen {α : Type} (o : Host.Outcome State Fault Refusal) (f : State → α) : Option α :=
  match o with
  | .next t => some (f t)
  | .fault _ => none
  | .refused _ => none

/-- The reset state with inputs presented. -/
def presented (xs : List Input) : State := { State.reset with inputs := xs }

/-- The reset state with a stored brightness and pixel. -/
def pixelState (bright r g b : Byte) : State := { State.reset with bright := bright, pixelR := r, pixelG := g, pixelB := b }

/-- After one frame from reset: linked, STATUS 0xE6 (95_test_vectors.md 2.8). -/
def linkedState (xs : List Input) : State := { transmit State.reset with inputs := xs }

/-- A SHOW running from reset: its three power events are over, the data line is about to be cleared (R79). -/
def initState (xs : List Input) : State :=
  { State.reset with
    busy := true
    lines := { pwrN := false, dataMode := .out, clkMode := .out, dataLat := false, clkLat := false }
    trace := powerEnableEvents
    seq := { cmd := 0x06000000#32, step := .init, framesLeft := 1, byte := 0, bit := 7, sub := 0 }
    inputs := xs }

/-- A SHOW accepted from reset, its first power event still to come (R79). -/
def powerState (xs : List Input) : State :=
  { State.reset with
    busy := true
    seq := { cmd := 0x06000000#32, step := .power, framesLeft := 1, byte := 0, bit := 7, sub := 0 }
    inputs := xs }

/-- The SHOW of `initState` with its settling delay over, still to link (R79). -/
def settledState (xs : List Input) : State :=
  { initState xs with
    trace := lazyInitEvents
    seq := { cmd := 0x06000000#32, step := .init, framesLeft := 1, byte := 0, bit := 7, sub := 3 } }

/-- The state with a CMD write held. -/
def holding (w : Word) (s : State) : State := { s with held := some w, ready := false }

/-- The rate limiter armed with a deadline, at a time. -/
def armed (deadline now : Word) : State := { State.reset with cycArmed := true, cycDeadline := deadline, nowMs := now }

/-! ### Well-formedness: each range check of R64 refuses -/

theorem test_setPwr_range : (AsmCmd.setPwr 2).wellFormed = false ∧ (AsmCmd.setPwr 2).toInstr = none := by decide
theorem test_setBri_range : (AsmCmd.setBri 256).wellFormed = false ∧ (AsmCmd.setBri 256).toInstr = none := by decide
theorem test_setPix_range :
    (AsmCmd.setPix 256 0 0).wellFormed = false ∧ (AsmCmd.setPix 0 256 0).wellFormed = false
      ∧ (AsmCmd.setPix 0 0 256).wellFormed = false := by decide
theorem test_setPixP_range : (AsmCmd.setPixP 16777216).wellFormed = false := by decide
theorem test_cycle_range : (AsmCmd.cycle 16777216).wellFormed = false := by decide
theorem test_color_range :
    (AsmCmd.color 256 0 0).wellFormed = false ∧ (AsmCmd.color 0 256 0).wellFormed = false
      ∧ (AsmCmd.color 0 0 256).wellFormed = false := by decide
theorem test_word_range : (AsmCmd.word 4294967296).wellFormed = false ∧ assemble (.word 4294967296) = none := by decide

/-! ### Decoding: words written out from R54 to R59, section 2.1 -/

theorem test_decode_setPwr : decode 0x01FFFFFE#32 = .ok (.setPwr false) ∧ decode 0x01000001#32 = .ok (.setPwr true) := by decide
theorem test_decode_setBri : decode 0x0212345F#32 = .ok (.setBri 95#8) := by decide
theorem test_decode_setPix : decode 0x03FF0100#32 = .ok (.setPix 255#8 1#8 0#8) := by decide
theorem test_decode_setPixP : decode 0x04123456#32 = .ok (.setPixP 0x123456#24) := by decide
theorem test_decode_clear : decode 0x05FFFFFF#32 = .ok .clear := by decide
theorem test_decode_showPixel : decode 0x06000000#32 = .ok .showPixel := by decide
theorem test_decode_cycle : decode 0x07FFFFFF#32 = .ok (.cycle 16777215#24) := by decide
theorem test_decode_color : decode 0x08010203#32 = .ok (.color 1#8 2#8 3#8) := by decide
theorem test_decode_illegal :
    decode 0x00000000#32 = .error (.illegalCommand 0x00000000#32) ∧ decode 0x09000000#32 = .error (.illegalCommand 0x09000000#32)
      ∧ decode 0xFF000000#32 = .error (.illegalCommand 0xFF000000#32)
      ∧ decode 0x80000006#32 = .error (.illegalCommand 0x80000006#32) := by decide
theorem test_decode_bytes :
    decodeBytes [0x5F#8, 0x34#8, 0x12#8, 0x02#8, 0xAA#8] = .ok (.setBri 95#8, [0xAA#8])
      ∧ decodeBytes [0x5F#8, 0x34#8] = .error .notOneWord := by decide
theorem test_decode_table : decodeTableWord 32 0x08010203 = some (.color 1#8 2#8 3#8) ∧ decodeTableWord 32 0 = none := by decide

/-! ### The assembler: R64 to R66 -/

theorem test_assemble_line :
    assembleText "@t=50 cycle 100 ; not eligible\nRD STATUS\nWAITIDLE".toList
      = some [.date 50#32, .command 0x07000064#32, .access (.read 1#3), .waitIdle] := by decide +kernel
theorem test_assemble_rgb :
    assembleLine "SETPIX 0xFF, 0, 0".toList = some [.command 0x03FF0000#32] ∧ assembleLine "SETBRI 256".toList = none := by
  decide +kernel
theorem test_assemble_pseudo :
    assembleLine "PWRON".toList = some [.command 0x01000001#32] ∧ assembleLine "BRIFULL".toList = some [.command 0x020000FF#32]
      ∧ assembleLine "OFF".toList = some [.command 0x05000000#32] := by decide +kernel
/-- Without WAITIDLE a read after PWROFF can see an intermediate point (P2, R48 (b)): here before the first event, 0xE6 and BUSY. -/
theorem test_event_level_text :
    ((assembleText "PWROFF\nRD STATUS".toList).map (List.map eventLevel)).bind
      (fun xs => seen (Host.Core.run core 2 (linkedState xs)) (fun t => t.rdata)) = some 0xE7#32 := by decide +kernel
/-- A date holds for its own command event by event too (R65, P3): the CYCLE written while PWRON runs is accepted at 50, before its deadline
of 100, though the line after it is dated 100. -/
theorem test_event_level_dates :
    ((assembleText "PWRON\n@t=50 CYCLE 0\n@t=100 RD PHASE".toList).map (List.map eventLevel)).bind
      (fun xs => seen (Host.Core.run core 10 { armed 100#32 0#32 with inputs := xs }) (fun t => (t.rdata, t.nowMs, t.inputs)))
      = some (0#32, 100#32, []) := by decide +kernel
theorem test_disassemble_ignored_bits : render (disassemble 0x0212345F#32) = "SETBRI 95".toList := by decide +kernel
theorem test_disassemble_illegal : render (disassemble 0x0900ABCD#32) = ".word 0x0900ABCD".toList := by decide +kernel

/-! ### One step of each instruction, sections 2.2 to 2.12 -/

theorem test_setPwr_on :
    seen (exec (.setPwr true) State.reset) (fun t => (statusView t, t.linked)) = some (0x00000064#32, false) := by decide +kernel
theorem test_setPwr_off :
    seen (exec (.setPwr false) (linkedState [])) (fun t => (statusView t, t.linked)) = some (0x00000080#32, false) := by decide +kernel
theorem test_setBri :
    seen (exec (.setBri 128#8) State.reset) brightView = some 0x81#32 ∧ seen (exec (.setBri 255#8) State.reset) brightView = some 0#32 := by
  decide +kernel
theorem test_setPix :
    seen (exec (.setPix 255#8 0#8 0#8) State.reset) (fun t => (pixelView t, statusView t, t.trace.length))
      = some (0x00FF0000#32, 0xE6#32, 447) := by decide +kernel
theorem test_setPixP :
    seen (exec (.setPixP 0x123456#24) (linkedState [])) (fun t => (pixelView t, frame t))
      = some (0x00123456#32, [0x00#8, 0x00#8, 0x00#8, 0x00#8, 0xFF#8, 0x56#8, 0x34#8, 0x12#8, 0xFF#8]) := by decide +kernel
theorem test_clear :
    seen (exec .clear (pixelState 0x81#8 0x12#8 0x34#8 0x56#8)) (fun t => (pixelView t, t.trace.length)) = some (0#32, 447) := by
  decide +kernel
theorem test_showPixel :
    seen (exec .showPixel (linkedState [])) (fun t => (statusView t, t.trace.length)) = some (0xE6#32, 447 + 441) := by decide +kernel
theorem test_cycle_eligible :
    seen (exec (.cycle 100#24) State.reset) (fun t => (t.phase, t.cycDeadline, pixelView t, t.trace.length))
      = some (1#8, 0x64#32, 0x00FC0300#32, 447 + 441) := by decide +kernel
theorem test_cycle_phase_wraps :
    seen (exec (.cycle 0#24) { armed 7#32 7#32 with phase := 255#8, cfg := { cycleDoubleShow := false } })
      (fun t => (t.phase, t.cycDeadline, pixelView t, t.trace.length)) = some (0#8, 7#32, 0x00FF0000#32, 447) := by decide +kernel
theorem test_color :
    seen (exec (.color 1#8 2#8 3#8) State.reset) (fun t => (resultView t, pixelView t)) = some (0x00010203#32, 0#32) := by decide +kernel
theorem test_illegal_keeps_the_first :
    seen (Host.Core.run core 2 (presented [.command 0x09000000#32, .command 0#32])) (fun t => (t.ill, t.errw, t.trace.length))
      = some (true, 0x09000000#32, 0) := by decide +kernel

/-! ### Tables of the spec -/

/-- Section 2.9.1. -/
theorem test_eligibility_table :
    eligible { State.reset with nowMs := 0x80000000#32 } = true ∧ eligible (armed 0x64#32 0x63#32) = false
      ∧ eligible (armed 0x64#32 0x64#32) = true ∧ eligible (armed 0x64#32 0x80000063#32) = true
      ∧ eligible (armed 0x64#32 0x80000064#32) = false ∧ eligible (armed 0x24#32 0x10#32) = false
      ∧ eligible (armed 0xFFFFFFF0#32 0x5#32) = true := by decide +kernel
/-- Section 2.9.2. -/
theorem test_wheel_table :
    wheel 1#8 = ⟨252#8, 3#8, 0#8⟩ ∧ wheel 84#8 = ⟨3#8, 252#8, 0#8⟩ ∧ wheel 85#8 = ⟨0#8, 255#8, 0#8⟩
      ∧ wheel 86#8 = ⟨0#8, 252#8, 3#8⟩ ∧ wheel 128#8 = ⟨0#8, 126#8, 129#8⟩ ∧ wheel 171#8 = ⟨3#8, 0#8, 252#8⟩
      ∧ wheel 200#8 = ⟨90#8, 0#8, 165#8⟩ ∧ wheel 254#8 = ⟨252#8, 0#8, 3#8⟩ := by decide +kernel
/-- Section 2.4, row 200 and the corner cases. -/
theorem test_scale_table :
    [0#8, 1#8, 2#8, 3#8, 64#8, 128#8, 129#8, 192#8, 200#8, 254#8, 255#8].map (scale 200#8)
      = [200#8, 0#8, 1#8, 2#8, 50#8, 100#8, 100#8, 150#8, 156#8, 198#8, 199#8]
      ∧ scale 255#8 129#8 = 128#8 ∧ scale 255#8 255#8 = 254#8 := by decide +kernel
/-- Section 2.5, last row. -/
theorem test_frame_bytes :
    frame (pixelState 0xC8#8 200#8 100#8 50#8) = [0x00#8, 0x00#8, 0x00#8, 0x00#8, 0xFF#8, 0x27#8, 0x4E#8, 0x9C#8, 0xFF#8] := by
  decide +kernel
/-- Section 2.6. -/
theorem test_bit_order :
    ledSamples { resetLines with dataMode := .out, clkMode := .out } (byteEvents 0xA5#8)
      = [true, false, true, false, false, true, false, true] := by decide +kernel
/-- A held write (R46): while a SHOW runs, a CMD write is held and its transfer is not ready. -/
theorem test_write_while_busy :
    seen (step (initState [.access (.write 0#3 0x02000080#32)])) (fun t => (t.held, t.ready, t.bright))
      = some (some 0x02000080#32, false, 0#8) := by decide +kernel
/-- SETPWR 0 from a linked block (R69, R48 (b)): a STATUS read after its third event shows BUSY, LINKED and DATA_LAT, all else 0. -/
theorem test_setPwr_off_read_inside :
    seen (Host.Core.run core 5 (linkedState [.access (.write 0#3 0x01000000#32), .tick, .tick, .tick, .access (.read 1#3)]))
      (fun t => (t.rdata, t.trace.drop 447)) = some (0x83#32, [.pwr true, .mode .data .inPd, .mode .clk .inPd]) := by decide +kernel
/-- After its first event the line is released, the data line still an output, LINKED still 1 (R69: `linked <- 0` last). -/
theorem test_setPwr_off_first_event :
    seen (Host.Core.run core 2 (linkedState [.access (.write 0#3 0x01000000#32), .tick]))
      (fun t => (t.lines.pwrN, t.lines.dataMode, t.linked, t.busy)) = some (true, .out, true, true) := by decide +kernel
/-- The host's fetch entry runs the word at once. -/
theorem test_fetch_word : seen (step (State.reset.withFetchWord 32 0x02000080)) brightView = some 0x81#32 := by decide +kernel

/-! ### Witnesses: each statement's hypotheses are met -/

theorem initState_inv (xs : List Input) : Inv (initState xs) := by
  constructor <;>
    simp [initState, State.reset, LinkInv, LinesUp, BusyInv, SeqInv, ClockInv, DataInv, ErrInv, ReplayInv, HeldInv,
      applyEvent, resetLines, bytesSent, powerEnableEvents]

theorem powerState_inv (xs : List Input) : Inv (powerState xs) := by
  constructor <;>
    simp [powerState, State.reset, LinkInv, BusyInv, SeqInv, ClockInv, DataInv, ErrInv, ReplayInv, HeldInv, replay, resetLines,
      bytesSent, framesSent, seqPowerOff, seqIsSetPwr, opField]

theorem linkedState_inv (xs : List Input) : Inv (linkedState xs) := by
  have sent : bytesSent (linkedState xs).trace = 9 := by
    rw [show (linkedState xs).trace = (transmit State.reset).trace from rfl, transmit_trace, bytesSent_append, bytesSent_transmitEvents]
    rfl
  have lines : (linkedState xs).lines = { pwrN := false, dataMode := .out, clkMode := .out, dataLat := true, clkLat := false } := by
    simp only [linkedState, transmit_lines]
    rfl
  have linked : (linkedState xs).linked = true := by simp [linkedState, transmit_linked]
  have pos : (linkedState xs).seq = idlePos := by simp [linkedState, transmit_eq, afterTransmit, State.reset]
  have busy : (linkedState xs).busy = false := by simp [linkedState, transmit_eq, afterTransmit, State.reset]
  have held : (linkedState xs).held = none := by simp [linkedState, transmit_eq, afterTransmit, State.reset]
  refine ⟨?_, ?_, ?_, ?_, ?_, ?_, ?_, ?_⟩
  · simp [LinkInv, LinesUp, lines]
  · simp [BusyInv, busy, pos, idlePos]
  · simp [SeqInv, pos, idlePos]
  · simp [ClockInv, lines, pos, idlePos]
  · simp [DataInv, pos, idlePos, framesSent, sent, lines, frameBytes]
  · simp [ErrInv, linkedState, transmit_eq, afterTransmit, State.reset]
  · have trace : (linkedState xs).trace = (transmit State.reset).trace := rfl
    simp only [ReplayInv, lines, trace]
    decide +kernel
  · simp [HeldInv, held]

theorem reset_idle (xs : List Input) : Idle (presented xs) := ⟨rfl, rfl, rfl⟩

theorem witness_EncodeOfDecodeClearsIgnoredBits : decode 0x0212345F#32 = .ok (.setBri 95#8) := by decide
theorem witness_DecoderMatchesTheOpcodeMap :
    (0x01FFFFFF#32).extractLsb' 24 8 = 0x01#8 ∧ (0x02000000#32).extractLsb' 24 8 = 0x02#8
      ∧ (0x03000000#32).extractLsb' 24 8 = 0x03#8 ∧ (0x04000000#32).extractLsb' 24 8 = 0x04#8
      ∧ (0x05000000#32).extractLsb' 24 8 = 0x05#8 ∧ (0x06000000#32).extractLsb' 24 8 = 0x06#8
      ∧ (0x07000000#32).extractLsb' 24 8 = 0x07#8 ∧ (0x08FFFFFF#32).extractLsb' 24 8 = 0x08#8
      ∧ (0x00FFFFFF#32).extractLsb' 24 8 = 0x00#8 ∧ 9 ≤ ((0x09000000#32).extractLsb' 24 8).toNat := by decide
theorem witness_IgnoredBitsHaveNoEffect :
    decode 0x02000080#32 = .ok (.setBri 0x80#8)
      ∧ ∀ k, (ignoredMask (.setBri 0x80#8)).getLsbD k = false → (0x02FFFF80#32).getLsbD k = (0x02000080#32).getLsbD k := by
  refine ⟨by decide, fun k h => ?_⟩
  by_cases hk : k < 32
  · have all : ∀ j : Fin 32, (0x00FFFF00#32).getLsbD j.val = false → (0x02FFFF80#32).getLsbD j.val = (0x02000080#32).getLsbD j.val := by
      decide
    exact all ⟨k, hk⟩ h
  · rw [BitVec.getLsbD_of_ge _ _ (by omega), BitVec.getLsbD_of_ge _ _ (by omega)]
theorem witness_IllegalWordIsRecordedAndNothingElse :
    (opField 0x00000000#32).toNat = 0 ∧ 9 ≤ (opField 0x09000000#32).toNat
      ∧ ¬((opField 0x08000000#32).toNat = 0 ∨ 9 ≤ (opField 0x08000000#32).toNat) := by decide
theorem witness_AssemblerWritesTheEncoding :
    (AsmCmd.setBri 255).toInstr = some (.setBri 255#8) ∧ (AsmCmd.setBri 256).wellFormed = false := by decide
theorem witness_DisassembleThenAssembleReproduces :
    (∀ i, decode 0x020000FF#32 = .ok i → 0x020000FF#32 &&& ignoredMask i = 0#32)
      ∧ ∀ i, decode 0x09000000#32 = .ok i → 0x09000000#32 &&& ignoredMask i = 0#32 := by
  have legal : decode 0x020000FF#32 = .ok (.setBri 0xFF#8) := by decide
  have illegal : decode 0x09000000#32 = .error (.illegalCommand 0x09000000#32) := by decide
  refine ⟨fun i h => ?_, fun i h => ?_⟩
  · rw [legal] at h
    cases h
    decide
  · rw [illegal] at h
    cases h
theorem witness_StatusShowsEachBit : 9 ≤ 9 ∧ 9 ≤ 31 := by decide
theorem witness_ReadbackRegistersShowState : (1#3 : PortAddr) ≠ 0#3 ∧ (7#3 : PortAddr) ≠ 0#3 := by decide
theorem witness_PinsFollowTheLineState :
    State.reset.lines.dataMode = .inPd ∧ State.reset.lines.clkMode = .inPd ∧ (initState []).lines.dataMode = .out
      ∧ (initState []).lines.clkMode = .out := by decide
theorem witness_ReadsHaveNoSideEffect :
    (initState [.access (.read 7#3), .access (.read 7#3)]).held = none
      ∧ (initState [.access (.read 7#3), .access (.read 7#3)]).inputs = [.access (.read 7#3), .access (.read 7#3)]
      ∧ (presented [.access (.read 0#3)]).inputs = .access (.read 0#3) :: [] := by decide
theorem witness_OnlyCmdWritesHaveAnEffect :
    (presented [.access (.write 7#3 1#32)]).held = none ∧ (7#3 : PortAddr) ≠ 0#3 ∧ (1#3 : PortAddr) ≠ 0#3
      ∧ Idle (presented [.command 0x06000000#32, .command 0x06000000#32]) := ⟨rfl, by decide, by decide, reset_idle _⟩
theorem witness_CmdWriteWhileBusyIsHeld :
    (initState [.access (.write 0#3 5#32)]).busy = true ∧ (initState [.access (.write 0#3 5#32)]).held = none
      ∧ (initState [.command 5#32]).busy = true ∧ (initState [.command 5#32]).held = none
      ∧ (holding 5#32 (initState [.waitIdle])).busy = true ∧ (holding 5#32 (initState [.waitIdle])).held = some 5#32
      ∧ (holding 5#32 State.reset).busy = false ∧ (holding 5#32 State.reset).held = some 5#32
      ∧ (holding 5#32 State.reset).inputs = [] ∧ (holding 5#32 (presented [.tick])).inputs = .tick :: []
      ∧ (holding 5#32 (presented [.time 9#32])).inputs = .time 9#32 :: []
      ∧ (initState [.date 9#32]).held = none ∧ (initState [.date 9#32]).inputs = .date 9#32 :: []
      ∧ IsTransfer (.command 7#32) ∧ IsTransfer (.access (.read 1#3)) ∧ IsTransfer .waitIdle ∧ IsTransfer (.date 9#32) ∧ IsTransfer (.bridgeRead 31 2)
      ∧ IsTransfer (.bridgeWrite 0 [1#8]) := by
  simp [IsTransfer, holding, initState, presented, State.reset]
theorem witness_RegistersAreFinalInTheAcceptCycle :
    decode 0x07000000#32 = .ok (.cycle 0#24) ∧ State.reset.busy = false ∧ eligible (armed 0x64#32 0x63#32) = false := by decide
theorem witness_BridgeIsLittleEndianAndWholeWord :
    State.reset.held = none ∧ (0 < 8 ∧ 7 < 8)
      ∧ (presented [.bridgeRead (4 * 7) 4]).inputs = [.bridgeRead (4 * 7) 4]
      ∧ (31 < 32 ∧ ¬(31 % 4 = 0 ∧ 4 = 4)) ∧ (28 < 32 ∧ ¬(28 % 4 = 0 ∧ [0#8, 0#8].length = 4)) ∧ 32 ≤ 32 := by decide
theorem witness_SecondHostIsRefused : (presented [.secondHost]).inputs = .secondHost :: [] := rfl
theorem witness_StepRunsTheDecodedCommand :
    Idle (presented [.command 0x05000000#32]) ∧ decode 0x05000000#32 = .ok .clear
      ∧ decode 0x09000000#32 = .error (.illegalCommand 0x09000000#32) := ⟨reset_idle _, by decide, by decide⟩
theorem witness_PowerDisableUnlinksAfterItsEvents :
    decode 0x01FFFFFE#32 = .ok (.setPwr false) ∧ (linkedState []).linked = true ∧ 3 ≤ 3 ∧ 4 ≤ 4 := by decide +kernel
theorem witness_FrameCarriesTheNewColour :
    (Instr.setPixP 0x010203#24 = .setPixP (1#8 ++ 2#8 ++ 3#8)) ∧ (Instr.setPix 1#8 2#8 3#8 = .setPix 1#8 2#8 3#8)
      ∧ Instr.clear = .clear := by decide
theorem witness_LazyInitPowersClearsSettlesLinks :
    (opField 0x06000000#32 ≠ 0x01#8 ∧ State.reset.linked = false)
      ∧ ((initState []).seq.step = .init ∧ (initState []).seq.sub ≤ 2)
      ∧ ((settledState []).seq.step = .init ∧ (settledState []).seq.sub = 3)
      ∧ (Inv (initState []) ∧ (initState []).seq.step = .init)
      ∧ (Inv (powerState []) ∧ (powerState []).seq.step = .power ∧ opField (powerState []).seq.cmd ≠ 0x01#8) :=
  ⟨⟨by decide, rfl⟩, ⟨rfl, by decide⟩, ⟨rfl, rfl⟩, ⟨initState_inv [], rfl⟩, powerState_inv [], rfl, by decide⟩
theorem witness_MultiplierTakesTheHighProductByte : (0#8 : Byte) = 0#8 ∧ (1#8 : Byte) ≠ 0#8 ∧ (255#8 : Byte) ≠ 0#8 := by decide
theorem witness_MultiplierLaws :
    (1#8 : Byte) ≠ 0#8 ∧ 0 < (255#8 : Byte).toNat ∧ (254#8 : Byte).toNat ≤ (255#8 : Byte).toNat := by decide
theorem witness_ShiftAddMultiplierAgrees : 8 ≤ 8 := le_rfl
theorem witness_EventCountsAndIdleLevels :
    Inv (linkedState []) ∧ (linkedState []).busy = false ∧ (linkedState []).linked = true :=
  ⟨linkedState_inv [], by decide +kernel, by decide +kernel⟩
theorem witness_LedSamplesTheFrameBits :
    (State.reset.lines.clkLat = false ∧ (State.reset.linked = true → LinesUp State.reset.lines))
      ∧ (linkedState []).lines.clkLat = false ∧ LinesUp (linkedState []).lines := by
  refine ⟨⟨rfl, fun h => by cases h⟩, by decide +kernel, by decide +kernel, by decide +kernel, by decide +kernel⟩
theorem witness_EligibilityIsWrapSafe :
    State.reset.cycArmed = false ∧ (armed 0x64#32 0x64#32).cycArmed = true
      ∧ (armed 0x64#32 0x64#32).nowMs = (armed 0x64#32 0x64#32).cycDeadline
      ∧ (armed 0xFFFFFFF0#32 5#32).nowMs = BitVec.ofNat 32 (2 ^ 32 + 5)
      ∧ (armed 0xFFFFFFF0#32 5#32).cycDeadline = BitVec.ofNat 32 (2 ^ 32 - 16)
      ∧ 2 ^ 32 + 5 < 2 ^ 32 - 16 + 2 ^ 31 ∧ 2 ^ 32 - 16 < 2 ^ 32 + 5 + 2 ^ 31 := by decide +kernel
theorem witness_EligibleCycleStepsTheWheel : eligible State.reset = true ∧ eligible (armed 0x64#32 0x64#32) = true := by decide +kernel
theorem witness_DeadlineComesFromTheEligibleCall :
    eligible State.reset = true
      ∧ ((0x64#32 : Word) - (State.reset.nowMs + (100#24 : Packed).setWidth 32)).toNat < 2 ^ 31
      ∧ ¬((0x63#32 : Word) - (State.reset.nowMs + (100#24 : Packed).setWidth 32)).toNat < 2 ^ 31 := by decide +kernel
theorem witness_WheelHasThreeSegments :
    255 - (171#8 : Byte).toNat < 85 ∧ (85 ≤ 255 - (170#8 : Byte).toNat ∧ 255 - (86#8 : Byte).toNat < 170)
      ∧ 170 ≤ 255 - (85#8 : Byte).toNat := by decide
theorem witness_WheelLaws :
    ((84#8 : Byte).toNat < (85#8 : Byte).toNat ∧ (85#8 : Byte).toNat ≤ 85)
      ∧ (85 ≤ (85#8 : Byte).toNat ∧ (85#8 : Byte).toNat < (170#8 : Byte).toNat ∧ (170#8 : Byte).toNat ≤ 170)
      ∧ (170 ≤ (170#8 : Byte).toNat ∧ (170#8 : Byte).toNat < (255#8 : Byte).toNat) ∧ wheel 0#8 = wheel 255#8 := by decide +kernel
theorem witness_CycleSendsTwoFramesOrOne :
    eligible State.reset = true ∧ State.reset.cfg.cycleDoubleShow = true
      ∧ eligible { State.reset with cfg := { cycleDoubleShow := false } } = true := by decide +kernel
theorem witness_IneligibleCycleDoesNothing :
    eligible (armed 0x64#32 0x63#32) = false ∧ decode 0x07000064#32 = .ok (.cycle 0x64#24) := by decide +kernel
theorem witness_IllegalRecordIsStickyUntilReset :
    (∃ t, step (presented [.command 0x09000000#32]) = .next t ∧ t.ill = true) ∧ State.reset.ill = false
      ∧ ¬ResetNext (presented [.command 0x09000000#32])
      ∧ (∃ t, step { State.reset with ill := true } = .next t) ∧ ResetNext (initState [.reset none]) :=
  ⟨⟨_, rfl, rfl⟩, rfl, fun h => (by obtain ⟨x, h⟩ := h; cases h), ⟨_, rfl⟩, none, rfl⟩
theorem witness_OnlyCycleReadsTheTime : ∀ interval, Instr.showPixel ≠ .cycle interval := fun _ h => by cases h
theorem witness_ResetSetsEveryField :
    (initState [.reset (some (.read 7#3))]).inputs = .reset (some (.read 7#3)) :: []
      ∧ (initState [.reset none, .tick]).inputs = .reset none :: [.tick] := by decide
theorem witness_ResetLeavesTheOutsideAlone : (initState [.reset none]).inputs = .reset none :: [] := rfl
theorem witness_ResetDuringAFrameThenShow :
    (initState [.reset none, .command 0x06000000#32]).inputs = [.reset none, .command 0x06000000#32] := rfl
theorem witness_RegistersChangeOnlyByTheirCommands :
    (∀ level, Instr.showPixel ≠ .setBri level) ∧ (∀ r g b, Instr.showPixel ≠ .setPix r g b) ∧ Instr.showPixel ≠ .clear
      ∧ Instr.showPixel ≠ .setPwr false ∧ (linkedState []).linked = true :=
  ⟨fun _ h => (by cases h), fun _ _ _ h => (by cases h), by decide, by decide, by simp [linkedState, transmit_linked]⟩
theorem witness_StepsOnlyAppendWireEvents : (∃ t, step (initState []) = .next t) ∧ ¬ResetNext (initState []) :=
  ⟨⟨_, rfl⟩, fun ⟨x, h⟩ => by cases h⟩
theorem witness_EveryStepKeepsTheInvariant : Inv (initState []) ∧ ∃ t, step (initState []) = .next t := ⟨initState_inv [], _, rfl⟩
theorem witness_ReachableStatesMeetTheRules :
    seen (Host.Core.run core 1 (presented [.command 0x06000000#32])) (fun t => (t.ill, t.busy, t.linked)) = some (false, false, true)
      ∧ ¬Unlinking (initState [])
      ∧ ∀ x ∈ (presented [.command 0x06000000#32]).inputs, ¬IsEventLevelWrite x := by
  refine ⟨by decide +kernel, fun h => (by cases h.1), fun x hx => ?_⟩
  obtain rfl : x = .command 0x06000000#32 := by simpa [presented] using hx
  simp [IsEventLevelWrite]
theorem witness_EventLevelEndsInTheCommandLevelState : Idle State.reset ∧ Idle (linkedState []) :=
  ⟨reset_idle [], by decide +kernel, by decide +kernel, by decide +kernel⟩
theorem witness_RunningCommandEnds : Inv (initState []) ∧ (initState []).busy = true ∧ (initState []).inputs = [] :=
  ⟨initState_inv [], rfl, rfl⟩
theorem witness_WaitIdleEnds :
    (Inv (initState [.waitIdle]) ∧ (initState [.waitIdle]).held = none ∧ (initState [.waitIdle]).inputs = .waitIdle :: [])
      ∧ Inv (linkedState [.waitIdle]) := ⟨⟨initState_inv _, rfl, rfl⟩, linkedState_inv _⟩
theorem witness_PrintedTextAssemblesToTheWord :
    (∀ i, decode 0x030102FF#32 = .ok i → 0x030102FF#32 &&& ignoredMask i = 0#32)
      ∧ ∀ i, decode 0xFF000000#32 = .ok i → 0xFF000000#32 &&& ignoredMask i = 0#32 := by
  have legal : decode 0x030102FF#32 = .ok (.setPix 1#8 2#8 0xFF#8) := by decide
  have illegal : decode 0xFF000000#32 = .error (.illegalCommand 0xFF000000#32) := by decide
  refine ⟨fun i h => ?_, fun i h => ?_⟩
  · rw [legal] at h
    cases h
    decide
  · rw [illegal] at h
    cases h

end Sys2Proof.Tests
end

section
/-!
PROOFS. Family 00_scope.md: a step runs the decoded command (O18), each command's frame (O51), and the event level ends in the
command-level state (O56).
-/

namespace Sys2Proof.Machine

/-! ### What a Transmit leaves alone -/

section TransmitFrame
variable (s : State)

@[simp] theorem transmit_pixelB : (transmit s).pixelB = s.pixelB := by rw [transmit_frame]
@[simp] theorem transmit_pixelG : (transmit s).pixelG = s.pixelG := by rw [transmit_frame]
@[simp] theorem transmit_pixelR : (transmit s).pixelR = s.pixelR := by rw [transmit_frame]
@[simp] theorem transmit_bright : (transmit s).bright = s.bright := by rw [transmit_frame]
@[simp] theorem transmit_phase : (transmit s).phase = s.phase := by rw [transmit_frame]
@[simp] theorem transmit_cycDeadline : (transmit s).cycDeadline = s.cycDeadline := by rw [transmit_frame]
@[simp] theorem transmit_cycArmed : (transmit s).cycArmed = s.cycArmed := by rw [transmit_frame]
@[simp] theorem transmit_result : (transmit s).result = s.result := by rw [transmit_frame]
@[simp] theorem transmit_ill : (transmit s).ill = s.ill := by rw [transmit_frame]
@[simp] theorem transmit_errw : (transmit s).errw = s.errw := by rw [transmit_frame]
@[simp] theorem transmit_busy : (transmit s).busy = s.busy := by rw [transmit_frame]
@[simp] theorem transmit_seq : (transmit s).seq = s.seq := by rw [transmit_frame]
@[simp] theorem transmit_rdata : (transmit s).rdata = s.rdata := by rw [transmit_frame]
@[simp] theorem transmit_ready : (transmit s).ready = s.ready := by rw [transmit_frame]
@[simp] theorem transmit_held : (transmit s).held = s.held := by rw [transmit_frame]
@[simp] theorem transmit_nowMs : (transmit s).nowMs = s.nowMs := by rw [transmit_frame]
@[simp] theorem transmit_cfg : (transmit s).cfg = s.cfg := by rw [transmit_frame]
@[simp] theorem transmit_inputs : (transmit s).inputs = s.inputs := by rw [transmit_frame]

/-- An eligible CYCLE ends with a Transmit, after at most one other (R99). -/
theorem cycleTransmit_cases : cycleTransmit s = transmit (transmit s) ∨ cycleTransmit s = transmit s := by
  unfold cycleTransmit
  split
  · exact .inl rfl
  · exact .inr rfl

end TransmitFrame

/-! ### Decoded words -/

theorem runWord_of_decode {w : Word} {i : Instr} (h : decode w = .ok i) (s : State) : runWord w s = exec i s := by
  simp [runWord, h]

theorem runWord_of_illegal {w : Word} {e : DecodeError} (h : decode w = .error e) (s : State) :
    runWord w s = .next (takeIllegal w s) := by
  simp [runWord, h]

theorem accept_of_decode {w : Word} {i : Instr} (h : decode w = .ok i) (s : State) : accept w s = startCommand i w s := by
  simp [accept, h]

theorem accept_of_illegal {w : Word} {e : DecodeError} (h : decode w = .error e) (s : State) :
    accept w s = takeIllegal w s := by
  simp [accept, h]

/-- An accepted word leaves the inputs to come as they are. -/
@[simp] theorem accept_inputs (w : Word) (s : State) : (accept w s).inputs = s.inputs := by
  cases h : decode w with
  | error e => rw [accept_of_illegal h, takeIllegal_inputs]
  | ok i =>
    rw [accept_of_decode h]
    cases i with
    | cycle interval =>
      rw [startCommand]
      split <;> rfl
    | _ => rfl

/-- With the block idle, a step takes the presented word from the inputs and runs it (R13, R27). -/
theorem step_of_command {s : State} {w : Word} {rest : List Input} (hi : Idle s) (h : s.inputs = .command w :: rest) :
    step s = runWord w { s with inputs := rest, ready := true } := by
  obtain ⟨hb, -, hh⟩ := hi
  simp [step_of_input h, present, hostFree, hb, hh]

/-- With the block idle, a CMD write of the port is accepted at once (R46). -/
theorem step_of_cmdWrite {s : State} {w : Word} {rest : List Input} (hi : Idle s)
    (h : s.inputs = .access (.write 0#3 w) :: rest) :
    step s = .next (accept w { s with inputs := rest, ready := true }) := by
  obtain ⟨hb, -, hh⟩ := hi
  simp [step_of_input h, present, hostFree, portAccess, portWrite, hb, hh]

/-- The state `withFetchWord` makes presents the word, the block idle (R119). -/
theorem withFetchWord_eq (s : State) (w : Word) :
    s.withFetchWord 32 w.toNat = { s with inputs := .command w :: s.inputs, busy := false, seq := idlePos, held := none } := by
  simp [State.withFetchWord, fetchWord, Nat.mod_eq_of_lt w.isLt]

/-! ### A command event by event -/

/-- Within 890 ticks, at each of which `busy` is 1, the block runs from `u` to `t`. -/
def RunsTo (u t : State) : Prop :=
  ∃ n, n ≤ 890 ∧ tick^[n] u = t ∧ ∀ k, k < n → (tick^[k] u).busy = true

theorem runsTo_refl (t : State) : RunsTo t t := ⟨0, by omega, rfl, fun _ hk => by omega⟩

/-- In DONE the next tick ends the command: only `busy` and the position change (R23). -/
theorem tick_atPos_donePos {t : State} (w : Word) (hb : t.busy = false) (hq : t.seq = idlePos) :
    tick (atPos (donePos w) { t with busy := true }) = t := by
  simp [tick, atPos, donePos, tickDone, ← hb, ← hq]

/-- A busy block whose ticks reach DONE ends one tick later, `busy` until then. -/
theorem runsTo_of_done {u t : State} {w : Word} {n : ℕ} (hn : n ≤ 889) (hu : u.busy = true)
    (h : tick^[n] u = atPos (donePos w) { t with busy := true }) (hb : t.busy = false) (hq : t.seq = idlePos) : RunsTo u t := by
  refine ⟨n + 1, by omega, ?_, fun k hk => ?_⟩
  · rw [Function.iterate_succ_apply', h, tick_atPos_donePos w hb hq]
  · exact (ticks_live (by rw [h]; rfl) hu k (by omega)).1

section IdleBlock
variable {s : State} (hb : s.busy = false) (hq : s.seq = idlePos)
include hb hq

/-- A started Transmit of one frame or two runs to its whole effect (R78). -/
theorem startTransmit_runsTo {w : Word} {k : Fin 3} (hk : k = 1 ∨ k = 2) (hc : opField w ≠ 0x01#8) :
    RunsTo (startTransmit w k s) (if k = 2 then transmit (transmit s) else transmit s) := by
  obtain ⟨n, hn, h⟩ := ticks_transmit w k s hk hc
  exact runsTo_of_done hn rfl h (by split <;> simp [hb]) (by split <;> simp [hq])

/-- A started SETPWR runs to its whole effect (R67). -/
theorem startPower_runsTo {w : Word} (hc : opField w = 0x01#8) :
    RunsTo (startPower w s) (if enField w then powerEnable s else powerDisable s) := by
  have h := ticks_setPwr w { s with busy := true } hc
  refine runsTo_of_done (w := w) (n := if enField w then 3 else 4) (by split <;> omega) rfl (h.trans ?_)
    (by split <;> simp [hb]) (by split <;> simp [hq])
  split <;> rfl

/-- What a legal word starts on an idle block runs to the state `exec` gives (R13, R48 (c)). -/
theorem startCommand_runsTo {w : Word} {i : Instr} (h : decode w = .ok i) :
    ∃ t, exec i s = .next t ∧ RunsTo (startCommand i w s) t := by
  have hop := opcode_of_decode h
  have one {s' : State} (hb' : s'.busy = false) (hq' : s'.seq = idlePos) (hc : opField w ≠ 0x01#8) :
      RunsTo (startTransmit w 1 s') (transmit s') := startTransmit_runsTo hb' hq' (.inl rfl) hc
  cases i with
  | setPwr en =>
    have run := startPower_runsTo hb hq hop
    rw [enField_of_decode h] at run
    exact ⟨_, rfl, run⟩
  | setBri level => exact ⟨_, rfl, runsTo_refl _⟩
  | color r g b => exact ⟨_, rfl, runsTo_refl _⟩
  | setPix r g b => exact ⟨_, rfl, one hb hq (by simp [hop, opcode])⟩
  | setPixP packed => exact ⟨_, rfl, one hb hq (by simp [hop, opcode])⟩
  | clear => exact ⟨_, rfl, one hb hq (by simp [hop, opcode])⟩
  | showPixel => exact ⟨_, rfl, one hb hq (by simp [hop, opcode])⟩
  | cycle interval =>
    refine ⟨_, rfl, ?_⟩
    have hc : opField w ≠ 0x01#8 := by simp [hop, opcode]
    by_cases he : eligible s = true
    · rw [startCommand, if_pos he, if_pos he, cycleTransmit, advanceWheel_cfg]
      cases hd : s.cfg.cycleDoubleShow with
      | true => exact startTransmit_runsTo (s := advanceWheel interval s) hb hq (.inr rfl) hc
      | false => exact one (s' := advanceWheel interval s) hb hq hc
    · rw [startCommand, if_neg he, if_neg he]
      exact runsTo_refl s

/-- An accepted word on an idle block runs to the state of the command level, an illegal word in its accept cycle (R104). -/
theorem accept_runsTo (w : Word) : ∃ t, runWord w s = .next t ∧ RunsTo (accept w s) t := by
  cases h : decode w with
  | ok i =>
    rw [runWord_of_decode h, accept_of_decode h]
    exact startCommand_runsTo hb hq h
  | error e =>
    rw [runWord_of_illegal h, accept_of_illegal h]
    exact ⟨_, rfl, runsTo_refl _⟩

end IdleBlock

/-- A run is its first step and then the run of the rest. -/
theorem run_succ_of_step {s t : State} (h : step s = .next t) (n : ℕ) :
    Host.Core.run core (n + 1) s = Host.Core.run core n t := by
  have hs : core.step s = .next t := h
  simp only [Host.Core.run, hs]

/-- A CMD write and `k` steps after it, `busy` until then, are the accept cycle and `k` ticks (R46, R48). -/
theorem run_of_cmdWrite {s : State} {w : Word} {k : ℕ} (hi : Idle s) (h : s.inputs = [.access (.write 0#3 w)])
    (hbusy : ∀ j < k, (tick^[j] (accept w { s with inputs := [], ready := true })).busy = true) :
    Host.Core.run core (k + 1) s = .next (tick^[k] (accept w { s with inputs := [], ready := true })) :=
  (run_succ_of_step (step_of_cmdWrite hi h) k).trans (run_ticks (accept_inputs w _) hbusy)

end Sys2Proof.Machine

open Sys2Proof Sys2Proof.Machine

/-- Settles O51: case by case, each command is its register update, at most two Transmits, or SETPWR's events. -/
theorem registersChangeOnlyByTheirCommands : Obligations.RegistersChangeOnlyByTheirCommands := by
  intro i s
  cases i with
  | setPwr en => cases en <;> exact ⟨_, rfl, by simp⟩
  | setBri level => exact ⟨_, rfl, by simp⟩
  | setPix r g b => exact ⟨_, rfl, by simp [transmit_linked]⟩
  | setPixP packed => exact ⟨_, rfl, by simp [storePacked, transmit_linked]⟩
  | clear => exact ⟨_, rfl, by simp [clearPixel, transmit_linked]⟩
  | showPixel => exact ⟨_, rfl, by simp [transmit_linked]⟩
  | cycle interval =>
    refine ⟨_, rfl, ?_⟩
    split
    · rcases cycleTransmit_cases (advanceWheel interval s) with h | h <;> simp [h, transmit_linked]
    · simp
  | color r g b => exact ⟨_, rfl, by simp⟩

/-- Settles O56: the first step accepts the word, and the ticks after it run to the state of the command level. -/
theorem eventLevelEndsInTheCommandLevelState : Obligations.EventLevelEndsInTheCommandLevelState := by
  intro s w hi
  have ⟨hb, hq, _⟩ := hi
  obtain ⟨t, hrun, n, hn, hend, hbusy⟩ := accept_runsTo (s := { s with inputs := [], ready := true }) hb hq w
  have commandLevel : step { s with inputs := [.command w] } = .next t :=
    (step_of_command (s := { s with inputs := [.command w] }) hi rfl).trans hrun
  have eventLevel (k : ℕ) (hk : k ≤ n) :=
    run_of_cmdWrite (s := { s with inputs := [.access (.write 0#3 w)] }) hi rfl fun j (hj : j < k) => hbusy j (by omega)
  refine ⟨n, hn, ?_, fun k hk => ⟨_, eventLevel k hk.le, hbusy k hk⟩⟩
  exact (eventLevel n le_rfl).trans ((congrArg _ hend).trans commandLevel.symm)

/-- Settles O18: an idle block runs the presented word, and `withFetchWord` presents the word to a block it makes idle. -/
theorem stepRunsTheDecodedCommand : Obligations.StepRunsTheDecodedCommand := by
  intro s w rest
  refine ⟨fun hi hin => ⟨fun i h => ?_, fun e h => ?_⟩, fun i h => ?_⟩
  · rw [step_of_command hi hin, runWord_of_decode h]
  · rw [step_of_command hi hin, runWord_of_illegal h]
  · rw [withFetchWord_eq, step_of_command (rest := s.inputs) ⟨rfl, rfl, rfl⟩ rfl, runWord_of_decode h]

end

section
/-!
PROOFS. Family 10_state.md, the invariant: it holds after reset (O54), every step keeps it (O53).
-/

-- With this option Lean elaborates the proofs of this section one after another (it says how section variables are included, which makes
-- no difference here). Elaborated side by side while the kernel-evaluated tests above still wait, they can exceed check.sh's memory limit.
set_option deprecated.oldSectionVars true

namespace Sys2Proof.Machine

/-! ### The invariant between commands -/

/-- (I3) between commands: whole frames have been sent, `data_lat` is 1 exactly if there was one, and there was one if the block is linked. -/
def FramesWhole (s : State) : Prop :=
  bytesSent s.trace % frameBytes = 0
    ∧ (s.lines.dataLat = true ↔ 1 ≤ framesSent s.trace)
    ∧ (s.linked = true → 1 ≤ framesSent s.trace)

/-- What the invariant says of a block that runs no command: (I1) to (I4) of R36 whole, the sequencer at IDLE. -/
def AtRest (s : State) : Prop :=
  s.busy = false ∧ s.seq = idlePos ∧ (s.linked = true → LinesUp s.lines) ∧ s.lines.clkLat = false ∧ FramesWhole s
    ∧ ErrInv s ∧ ReplayInv s ∧ HeldInv s

theorem framesWhole_of_dataInv {s : State} (h : DataInv s) (hf : s.seq.step ≠ .frame) (hi : s.seq.step ≠ .init) : FramesWhole s := by
  unfold DataInv at h
  split at h
  · contradiction
  · contradiction
  · exact h

/-- Outside FRAME, whole frames sent and the data latch high exactly if there was one are enough for (I3). -/
theorem FramesWhole.dataInv {s : State} (h : FramesWhole s) (hf : s.seq.step ≠ .frame) : DataInv s := by
  unfold DataInv
  split
  · contradiction
  · obtain ⟨whole, -, -⟩ := h
    exact whole
  · exact h

/-- Events that end no byte and keep the data latch keep (I3), `linked` being set by none. -/
theorem FramesWhole.of_sent {s t : State} (h : FramesWhole s) (hn : bytesSent t.trace = bytesSent s.trace)
    (hd : t.lines.dataLat = s.lines.dataLat) (hl : t.linked = true → s.linked = true) : FramesWhole t := by
  obtain ⟨whole, high, sent⟩ := h
  rw [FramesWhole, framesSent, hn, hd]
  exact ⟨whole, high, fun ht => sent (hl ht)⟩

theorem Inv.atRest {s : State} (h : Inv s) (hb : s.busy = false) : AtRest s := by
  have hq := h.busy.2 hb
  have hstep : s.seq.step = .idle := by rw [hq]; rfl
  refine ⟨hb, hq, fun hl => h.link hl (not_unlinking (by simp [hstep])), ?_, ?_, h.err, h.replayed, h.heldWrite⟩
  · simpa [ClockInv, hstep] using h.clock
  · exact framesWhole_of_dataInv h.data (by simp [hstep]) (by simp [hstep])

theorem AtRest.inv {s : State} (h : AtRest s) : Inv s := by
  obtain ⟨hb, hq, link, clkLow, whole, err, replayed, held⟩ := h
  have hstep : s.seq.step = .idle := by rw [hq]; rfl
  refine ⟨fun hl _ => link hl, ?_, ?_, ?_, whole.dataInv (by simp [hstep]), err, replayed, held⟩
  · simp [BusyInv, hb, hq, idlePos]
  · simp only [SeqInv, hstep]
  · simp [ClockInv, hstep, clkLow]

/-- Reset leaves the block at rest, whatever is outside it (R117). -/
theorem atRest_reset (rdata now : Word) (cfg : Config) (inputs : List Input) :
    AtRest { State.reset with rdata := rdata, nowMs := now, cfg := cfg, inputs := inputs } := by
  refine ⟨rfl, rfl, fun hl => by simp [State.reset] at hl, rfl, ?_, fun _ => rfl, rfl, fun hh => absurd rfl hh⟩
  simp [FramesWhole, State.reset, resetLines, bytesSent, framesSent]

theorem atRest_resetBlock (x : Option PortAccess) (s : State) : AtRest (resetBlock x s) := atRest_reset _ _ _ _

/-! ### Commands keep the block at rest -/

section Commands
variable {s : State}

/-! The register updates touch nothing that `AtRest` speaks of. -/

theorem AtRest.after_storePixel (h : AtRest s) (r g b : Byte) : AtRest (storePixel r g b s) := h
theorem AtRest.after_storeBright (h : AtRest s) (level : Byte) : AtRest (storeBright level s) := h
theorem AtRest.after_storeResult (h : AtRest s) (r g b : Byte) : AtRest (storeResult r g b s) := h
theorem AtRest.after_advanceWheel (h : AtRest s) (interval : Packed) : AtRest (advanceWheel interval s) := h

theorem AtRest.after_takeIllegal (h : AtRest s) (w : Word) : AtRest (takeIllegal w s) := by
  obtain ⟨hb, hq, link, clkLow, whole, -, replayed, held⟩ := h
  exact ⟨hb, hq, link, clkLow, whole, fun hi => by simp at hi, replayed, held⟩

theorem replay_transmitEvents (s : State) : replay (transmitEvents s) s.lines = linesAfterTransmit s := by
  rw [transmitEvents, replay_append, replay_frame]
  cases h : s.linked <;> simp [linesAfterTransmit, replay_lazyInitEvents, h]

theorem ReplayInv.emits (h : ReplayInv s) {t : State} {es : List WireEvent} (ht : t.trace = s.trace ++ es)
    (hl : t.lines = replay es s.lines) : ReplayInv t := by
  rw [ReplayInv, hl, ht, replay_append, ← h]

/-- A Transmit brings the lines up if they were not, and sends one whole frame (R78, R79). -/
theorem AtRest.after_transmit (h : AtRest s) : AtRest (transmit s) := by
  obtain ⟨hb, hq, link, -, ⟨whole, -, -⟩, err, replayed, held⟩ := h
  have hsent : bytesSent (transmit s).trace = bytesSent s.trace + frameBytes := by
    rw [transmit_trace, bytesSent_append, bytesSent_transmitEvents]
  have hone : 1 ≤ framesSent (transmit s).trace := by
    rw [framesSent, hsent, Nat.add_div_right _ (show 0 < frameBytes from Nat.succ_pos 8)]
    exact Nat.le_add_left 1 _
  have hup : LinesUp (transmit s).lines := by
    rw [transmit_lines]
    cases hl : s.linked with
    | false => simp [LinesUp, linesAfterTransmit, hl]
    | true => simpa [LinesUp, linesAfterTransmit, hl] using link hl
  refine ⟨by simp [hb], by simp [hq], fun _ => hup, ?_, ⟨?_, ?_, fun _ => hone⟩, ?_, ?_, ?_⟩
  · rw [transmit_lines]; rfl
  · rw [hsent, Nat.add_mod_right, whole]
  · simp [transmit_lines, linesAfterTransmit, hone]
  · simpa [ErrInv] using err
  · exact replayed.emits (transmit_trace s) (by rw [transmit_lines, replay_transmitEvents])
  · simpa [HeldInv] using held

theorem AtRest.after_powerEnable (h : AtRest s) : AtRest (powerEnable s) := by
  obtain ⟨hb, hq, -, clkLow, whole, err, replayed, held⟩ := h
  have hsent : bytesSent (powerEnable s).trace = bytesSent s.trace := by
    rw [powerEnable_trace, bytesSent_append]
    rfl
  exact ⟨hb, hq, fun _ => ⟨rfl, rfl, rfl⟩, clkLow, whole.of_sent hsent rfl id, err, replayed.emits rfl rfl, held⟩

theorem AtRest.after_powerDisable (h : AtRest s) : AtRest (powerDisable s) := by
  obtain ⟨hb, hq, -, clkLow, whole, err, replayed, held⟩ := h
  have hsent : bytesSent (powerDisable s).trace = bytesSent s.trace := by
    rw [powerDisable_trace, bytesSent_append]
    rfl
  have unlinked : (powerDisable s).linked ≠ true := by simp
  exact ⟨hb, hq, fun hl => absurd hl unlinked, clkLow, whole.of_sent hsent rfl fun hl => absurd hl unlinked, err,
    replayed.emits rfl rfl, held⟩

/-- Every command leaves a block at rest at rest (R13). -/
theorem AtRest.after_exec (h : AtRest s) {t : State} (i : Instr) (ht : exec i s = .next t) : AtRest t := by
  cases i <;> cases ht
  case setPwr en => cases en <;> [exact h.after_powerDisable; exact h.after_powerEnable]
  case setBri level => exact h.after_storeBright level
  case setPix r g b => exact (h.after_storePixel r g b).after_transmit
  case setPixP packed => exact (h.after_storePixel _ _ _).after_transmit
  case clear => exact (h.after_storePixel _ _ _).after_transmit
  case showPixel => exact h.after_transmit
  case cycle interval =>
    split
    · rcases cycleTransmit_cases (advanceWheel interval s) with hc | hc <;> rw [hc]
      · exact (h.after_advanceWheel interval).after_transmit.after_transmit
      · exact (h.after_advanceWheel interval).after_transmit
    · exact h
  case color r g b => exact h.after_storeResult r g b

theorem AtRest.after_runWord (h : AtRest s) {t : State} (w : Word) (ht : runWord w s = .next t) : AtRest t := by
  cases hd : decode w with
  | ok i => exact h.after_exec i (by rwa [runWord_of_decode hd] at ht)
  | error e =>
    rw [runWord_of_illegal hd] at ht
    cases ht
    exact h.after_takeIllegal w

/-! ### The accept cycle -/

/-- A Transmit of at least one frame starts at the first power event, or, linked, at the frame's first bit (R78). -/
theorem AtRest.startTransmit_inv (h : AtRest s) {w : Word} {k : Fin 3} (hk : 1 ≤ k) (hc : opField w ≠ 0x01#8) :
    Inv (startTransmit w k s) := by
  obtain ⟨-, -, link, clkLow, frames, err, replayed, held⟩ := h
  have hcmd : seqIsSetPwr (startTransmit w k s) = false := by simpa [seqIsSetPwr] using hc
  cases hl : s.linked with
  | false =>
    refine ⟨by simp [LinkInv, hl], by simp [BusyInv, hl], ?_, ?_, ?_, err, replayed, held⟩
    · simp [SeqInv, hcmd, hl, idlePos, hk]
    · simp [ClockInv, hl, clkLow]
    · exact FramesWhole.dataInv (s := startTransmit w k s) frames (by simp [hl])
  | true =>
    obtain ⟨whole, -, -⟩ := frames
    refine ⟨fun _ _ => link hl, by simp [BusyInv, hl], ?_, ?_, ?_, err, replayed, held⟩
    · simp [SeqInv, hl, idlePos, hk]
    · simp [ClockInv, idlePos, clkLow]
    · simp [DataInv, hl, idlePos, whole]

/-- SETPWR starts at its first event (R67). -/
theorem AtRest.startPower_inv (h : AtRest s) {w : Word} (hc : opField w = 0x01#8) : Inv (startPower w s) := by
  obtain ⟨-, -, link, clkLow, frames, err, replayed, held⟩ := h
  have hcmd : seqIsSetPwr (startPower w s) = true := by simpa [seqIsSetPwr] using hc
  refine ⟨fun hl _ => link hl, by simp [BusyInv], ?_, ?_, ?_, err, replayed, held⟩
  · simp [SeqInv, hcmd, idlePos]
  · simp [ClockInv, clkLow]
  · exact FramesWhole.dataInv (s := startPower w s) frames (by simp)

theorem AtRest.startCommand_inv (h : AtRest s) {w : Word} {i : Instr} (hd : decode w = .ok i) : Inv (startCommand i w s) := by
  have hop := opcode_of_decode hd
  cases i with
  | setPwr en => exact h.startPower_inv hop
  | setBri level => exact (h.after_storeBright level).inv
  | setPix r g b => exact (h.after_storePixel r g b).startTransmit_inv le_rfl (by simp [hop, opcode])
  | setPixP packed => exact (h.after_storePixel _ _ _).startTransmit_inv le_rfl (by simp [hop, opcode])
  | clear => exact (h.after_storePixel _ _ _).startTransmit_inv le_rfl (by simp [hop, opcode])
  | showPixel => exact h.startTransmit_inv le_rfl (by simp [hop, opcode])
  | cycle interval =>
    rw [startCommand]
    split
    · exact (h.after_advanceWheel interval).startTransmit_inv (by split <;> simp) (by simp [hop, opcode])
    · exact h.inv
  | color r g b => exact (h.after_storeResult r g b).inv

theorem AtRest.accept_inv (h : AtRest s) (w : Word) : Inv (accept w s) := by
  cases hd : decode w with
  | ok i => rw [accept_of_decode hd]; exact h.startCommand_inv hd
  | error e => rw [accept_of_illegal hd]; exact (h.after_takeIllegal w).inv

end Commands

/-! ### A tick keeps the invariant -/

section Ticks
variable {s : State}

/-- Of the invariant, a tick of a running command can break only what speaks of the position. -/
theorem Inv.of_tick (h : Inv s) (link : LinkInv (tick s)) (busy : BusyInv (tick s)) (pos : SeqInv (tick s))
    (clock : ClockInv (tick s)) (data : DataInv (tick s)) : Inv (tick s) := by
  obtain ⟨es, ht, hl⟩ := tick_events s
  exact ⟨link, busy, pos, clock, data, by simpa [ErrInv] using h.err, h.replayed.emits ht hl, by simpa [HeldInv] using h.heldWrite⟩

/-- A block at a position is busy (R23). -/
theorem Inv.busy_of_step (h : Inv s) (hs : s.seq.step ≠ .idle) : s.busy = true := h.busy.1.2 hs

/-- But in FRAME the clock latch is low (R88). -/
theorem Inv.clkLow_of_step (h : Inv s) (hs : s.seq.step ≠ .frame) : s.lines.clkLat = false := by
  simpa [ClockInv, hs] using h.clock

theorem Inv.init_pos (h : Inv s) (hstep : s.seq.step = .init) :
    s.seq.sub ≤ 3 ∧ s.linked = false ∧ LinesUp s.lines ∧ 1 ≤ s.seq.framesLeft
      ∧ (1 ≤ s.seq.sub → s.lines.dataLat = false) := by
  simpa only [SeqInv, hstep] using h.pos

theorem Inv.frame_pos (h : Inv s) (hstep : s.seq.step = .frame) :
    s.linked = true ∧ 1 ≤ s.seq.framesLeft ∧ (s.seq.sub = 6 → s.seq.bit = 0) := by
  simpa only [SeqInv, hstep] using h.pos

theorem tick_of_power (hstep : s.seq.step = .power) : tick s = tickPower s := by simp [tick, hstep]
theorem tick_of_init (hstep : s.seq.step = .init) : tick s = tickInit s := by simp [tick, hstep]
theorem tick_of_frame (hstep : s.seq.step = .frame) : tick s = tickFrame s := by simp [tick, hstep]

theorem busyInv_of_running {t : State} (hb : t.busy = true) (hs : t.seq.step ≠ .idle) : BusyInv t := by
  simp [BusyInv, hb, hs]

theorem clockInv_of_low {t : State} (hc : t.lines.clkLat = false) (hs : t.seq.step ≠ .frame) : ClockInv t := by
  simp [ClockInv, hc, hs]

/-! #### POWER -/

/-- A power event leaves both latches and the count of bytes as they are (R68, R69). -/
theorem powerEvent_frame (off : Bool) (sub : Fin 7) (l : Lines) (es : List WireEvent) :
    (applyEvent l (powerEvent off sub)).dataLat = l.dataLat ∧ (applyEvent l (powerEvent off sub)).clkLat = l.clkLat
      ∧ bytesSent (es ++ [powerEvent off sub]) = bytesSent es := by
  rw [bytesSent_one]
  unfold powerEvent
  split_ifs <;> simp_all [applyEvent]

/-- After PowerDisable's first or second event the next is due, after its third the clearing of `linked` (R69). -/
theorem tickPower_off (hoff : seqPowerOff s = true) (hsub : s.seq.sub ≤ 2) : tickPower s =
    { emit (powerEvent true s.seq.sub) s with seq := { s.seq with sub := s.seq.sub + 1 } } := by
  rw [tickPower_event (by omega), nextPowerPos, hoff]
  by_cases hlt : s.seq.sub < 2
  · rw [if_pos hlt]
  · rw [if_neg hlt, if_pos rfl, show s.seq.sub = 2 by omega]
    rfl

/-- After PowerEnable's first or second event the next is due (R68). -/
theorem tickPower_on (hoff : seqPowerOff s = false) (hsub : s.seq.sub < 2) : tickPower s =
    { emit (powerEvent false s.seq.sub) s with seq := { s.seq with sub := s.seq.sub + 1 } } := by
  rw [tickPower_event (by omega), nextPowerPos, hoff, if_pos hsub]

/-- After PowerEnable's last event SETPWR is done, and lazy initialisation goes on to INIT (R67, R79). -/
theorem tickPower_last (hoff : seqPowerOff s = false) (hsub : s.seq.sub = 2) : tickPower s =
    { emit (.mode .clk .out) s with seq := { s.seq with step := if seqIsSetPwr s then .done else .init, sub := 0 } } := by
  rw [tickPower_event (by simp [hsub]), nextPowerPos, hoff, hsub]
  rfl

/-- What a tick in POWER leaves as it is: the latches, the bytes sent, `busy`, and `linked` but for clearing it (R68, R69). -/
theorem tickPower_frame (hstep : s.seq.step = .power) :
    (tickPower s).lines.dataLat = s.lines.dataLat ∧ (tickPower s).lines.clkLat = s.lines.clkLat
      ∧ bytesSent (tickPower s).trace = bytesSent s.trace ∧ (tickPower s).busy = s.busy
      ∧ ((tickPower s).linked = true → s.linked = true)
      ∧ (tickPower s).seq.step ≠ .frame ∧ (tickPower s).seq.step ≠ .idle := by
  obtain ⟨hd, hc, hn⟩ := powerEvent_frame (seqPowerOff s) s.seq.sub s.lines s.trace
  by_cases h3 : s.seq.sub = 3
  · simp [tickPower_unlink h3]
  · rw [tickPower_event h3]
    refine ⟨hd, hc, hn, rfl, id, ?_⟩
    simp only [nextPowerPos]
    split_ifs <;> simp [hstep]

/-- Inside PowerDisable the lines follow the events so far, and `linked` may outlast the power (R69, log 4). -/
theorem Inv.tickPower_off_pos (h : Inv s) (hstep : s.seq.step = .power) (hoff : seqPowerOff s = true) (hsub : s.seq.sub ≤ 2) :
    LinkInv (tickPower s) ∧ SeqInv (tickPower s) := by
  have hnext := tickPower_off hoff hsub
  have hstep' : (tickPower s).seq.step = .power := by rw [hnext]; exact hstep
  have hoff' : seqPowerOff (tickPower s) = true := by rw [hnext]; exact hoff
  have hset' : seqIsSetPwr (tickPower s) = true := by simp_all [seqPowerOff]
  have hpos := h.pos
  simp only [SeqInv, hstep] at hpos
  obtain ⟨-, hlines, -⟩ := hpos
  obtain ⟨hp, hd, -⟩ := hlines hoff
  have hcase : s.seq.sub = 0 ∨ s.seq.sub = 1 ∨ s.seq.sub = 2 := by omega
  refine ⟨fun _ hu => (hu ⟨hstep', hoff', ?_⟩).elim, ?_⟩
  · rcases hcase with h0 | h0 | h0 <;> simp [hnext, h0]
  · simp only [SeqInv, hstep', hoff', hset']
    rcases hcase with h0 | h0 | h0 <;> simp_all [emit, powerEvent, applyEvent]

/-- Before PowerEnable's last event the lines follow the events so far, and stay up if they were (R68). -/
theorem Inv.tickPower_on_pos (h : Inv s) (hstep : s.seq.step = .power) (hoff : seqPowerOff s = false) (hsub : s.seq.sub < 2) :
    LinkInv (tickPower s) ∧ SeqInv (tickPower s) := by
  have hnext := tickPower_on hoff hsub
  have hstep' : (tickPower s).seq.step = .power := by rw [hnext]; exact hstep
  have hoff' : seqPowerOff (tickPower s) = false := by rw [hnext]; exact hoff
  have hset' : seqIsSetPwr (tickPower s) = seqIsSetPwr s := by rw [hnext]; rfl
  have hup : s.linked = true → LinesUp s.lines := fun hl => h.link hl fun hu => by simp [Unlinking, hoff] at hu
  have hpos := h.pos
  simp only [SeqInv, hstep] at hpos
  obtain ⟨-, -, hlines, hlazy⟩ := hpos
  obtain ⟨hp, -⟩ := hlines hoff
  have hcase : s.seq.sub = 0 ∨ s.seq.sub = 1 := by omega
  refine ⟨fun hl _ => ?_, ?_⟩
  · obtain ⟨hpwr, hdata, hclk⟩ := hup (by simpa [hnext, emit] using hl)
    rcases hcase with h0 | h0 <;> simp [hnext, h0, emit, powerEvent, applyEvent, LinesUp, hpwr, hdata, hclk]
  · simp only [SeqInv, hstep', hoff', hset']
    rcases hcase with h0 | h0 <;> simp_all [emit, powerEvent, applyEvent]

/-- After PowerEnable's last event the lines are up (R68). -/
theorem Inv.tickPower_last_pos (h : Inv s) (hstep : s.seq.step = .power) (hoff : seqPowerOff s = false) (hsub : s.seq.sub = 2) :
    LinkInv (tickPower s) ∧ SeqInv (tickPower s) := by
  have hpos := h.pos
  simp only [SeqInv, hstep] at hpos
  obtain ⟨-, -, hlines, hlazy⟩ := hpos
  obtain ⟨hp, hd⟩ := hlines hoff
  have hup : LinesUp (tickPower s).lines := by
    rw [tickPower_last hoff hsub]
    exact ⟨hp (by simp [hsub]), hd (by simp [hsub]), rfl⟩
  refine ⟨fun _ _ => hup, ?_⟩
  cases hset : seqIsSetPwr s with
  | true => simp [SeqInv, tickPower_last hoff hsub, hset]
  | false =>
    obtain ⟨hl, hk⟩ := hlazy hset
    rw [tickPower_last hoff hsub] at hup ⊢
    simp only [SeqInv, hset]
    exact ⟨by simp, hl, hup, hk, by simp⟩

theorem Inv.tick_power (h : Inv s) (hstep : s.seq.step = .power) : Inv (tick s) := by
  have hclk := h.clkLow_of_step (by simp [hstep])
  have frames := framesWhole_of_dataInv h.data (by simp [hstep]) (by simp [hstep])
  obtain ⟨hd, hc, hn, hb, hl, hf, hi⟩ := tickPower_frame hstep
  have hpos := h.pos
  simp only [SeqInv, hstep] at hpos
  obtain ⟨hsub, -⟩ := hpos
  have ⟨link, pos⟩ : LinkInv (tickPower s) ∧ SeqInv (tickPower s) := by
    rcases hsub with hsub | ⟨h3, -⟩
    · cases hoff : seqPowerOff s with
      | true => exact h.tickPower_off_pos hstep hoff hsub
      | false =>
        rcases lt_or_eq_of_le hsub with hlt | heq
        · exact h.tickPower_on_pos hstep hoff hlt
        · exact h.tickPower_last_pos hstep hoff heq
    · simp [tickPower_unlink h3, LinkInv, SeqInv]
  apply h.of_tick <;> rw [tick_of_power hstep]
  · exact link
  · exact busyInv_of_running (hb.trans (h.busy_of_step (by simp [hstep]))) hi
  · exact pos
  · exact clockInv_of_low (hc.trans hclk) hf
  · exact (frames.of_sent hn hd hl).dataInv hf

/-! #### INIT, DONE -/

/-- Up to the settling delay a tick in INIT emits an event that ends no byte and leaves the data latch low (R79). -/
theorem Inv.tickInit_event (h : Inv s) (hstep : s.seq.step = .init) (hsub : s.seq.sub ≤ 2) :
    ∃ e, tickInit s = { emit e s with seq := { s.seq with sub := s.seq.sub + 1 } }
      ∧ applyEvent s.lines e = { s.lines with dataLat := false } ∧ e ≠ .wait .gap := by
  have hclk := h.clkLow_of_step (by simp [hstep])
  obtain ⟨-, -, -, -, hlow⟩ := h.init_pos hstep
  have hcase : s.seq.sub = 0 ∨ s.seq.sub = 1 ∨ s.seq.sub = 2 := by omega
  have hsame (hd : s.lines.dataLat = false) : ({ s.lines with clkLat := false } : Lines) = { s.lines with dataLat := false } := by
    simp [hd, hclk]
  rcases hcase with h0 | h0 | h0
  · exact ⟨.set .data false, by simp [tickInit, h0], rfl, by simp⟩
  · exact ⟨.set .clk false, by simp [tickInit, h0], hsame (hlow (by simp [h0])), by simp⟩
  · exact ⟨.wait .settle, by simp [tickInit, h0], by simp [applyEvent, ← hlow (by simp [h0])], by simp⟩

/-- In INIT the lines are up throughout, and `linked` comes last (R79, log 5). -/
theorem Inv.tick_init (h : Inv s) (hstep : s.seq.step = .init) : Inv (tick s) := by
  have hb := h.busy_of_step (by simp [hstep])
  have hclk := h.clkLow_of_step (by simp [hstep])
  have whole : bytesSent s.trace % frameBytes = 0 := by simpa only [DataInv, hstep] using h.data
  obtain ⟨hsub, hl, hup, hk, -⟩ := h.init_pos hstep
  by_cases h3 : s.seq.sub = 3
  · have hnext : tickInit s =
        { s with linked := true, seq := { s.seq with step := .frame, byte := 0, bit := 7, sub := 0 } } := by simp [tickInit, h3]
    apply h.of_tick <;> rw [tick_of_init hstep, hnext]
    · exact fun _ _ => hup
    · exact busyInv_of_running hb (by simp)
    · simp [SeqInv, hk]
    · simp [ClockInv, hclk]
    · simp [DataInv, whole]
  · obtain ⟨e, hnext, hlines, hgap⟩ := h.tickInit_event hstep (by omega)
    have hlines' : (emit e s).lines = { s.lines with dataLat := false } := hlines
    apply h.of_tick <;> rw [tick_of_init hstep, hnext]
    · simp [LinkInv, emit, hl]
    · exact busyInv_of_running hb (by simp [hstep])
    · simp only [SeqInv, hstep, hlines']
      exact ⟨by omega, hl, hup, hk, fun _ => trivial⟩
    · exact clockInv_of_low (by simp [hlines', hclk]) (by simp [hstep])
    · simp [DataInv, hstep, emit, bytesSent_one, hgap, whole]

/-- A command ends with the block at rest (R23). -/
theorem Inv.tick_done (h : Inv s) (hstep : s.seq.step = .done) : Inv (tick s) := by
  have link : s.linked = true → LinesUp s.lines := fun hl => h.link hl (not_unlinking (by simp [hstep]))
  have frames := framesWhole_of_dataInv h.data (by simp [hstep]) (by simp [hstep])
  rw [show tick s = tickDone s by simp [tick, hstep]]
  exact AtRest.inv ⟨rfl, rfl, link, h.clkLow_of_step (by simp [hstep]), frames, h.err, h.replayed, h.heldWrite⟩

/-! #### FRAME -/

/-- What a tick in FRAME does (R88): the data latch takes the bit at `sub` 0, the clock latch rises at 2 and falls at 4, a byte is
sent whole at 6, and no other part of the line state changes. -/
theorem tickFrame_effect (s : State) :
    (tickFrame s).lines =
        { s.lines with
          dataLat := if s.seq.sub = 0 then ((frame s).getD s.seq.byte 0#8).getLsbD s.seq.bit else s.lines.dataLat
          clkLat := if s.seq.sub = 2 then true else if s.seq.sub = 4 then false else s.lines.clkLat }
      ∧ bytesSent (tickFrame s).trace = bytesSent s.trace + if s.seq.sub = 6 then 1 else 0 := by
  have hcase : s.seq.sub = 0 ∨ s.seq.sub = 1 ∨ s.seq.sub = 2 ∨ s.seq.sub = 3 ∨ s.seq.sub = 4 ∨ s.seq.sub = 5
      ∨ s.seq.sub = 6 := by omega
  rcases hcase with h0 | h0 | h0 | h0 | h0 | h0 | h0 <;> simp [tickFrame, emit, bytesSent_one, frameEvent, h0, applyEvent]

/-- Where a frame goes on after an event (R80, R88): within the bit, to the gap, to the next bit, byte or frame, or to DONE. -/
theorem nextFramePos_cases (p : SeqPos) :
    (p.sub < 5 ∧ nextFramePos p = { p with sub := p.sub + 1 })
      ∨ (p.sub = 5 ∧ p.bit = 0 ∧ nextFramePos p = { p with sub := 6 })
      ∨ (p.sub = 5 ∧ p.bit ≠ 0 ∧ nextFramePos p = { p with bit := p.bit - 1, sub := 0 })
      ∨ (p.sub = 6 ∧ p.byte < 8 ∧ nextFramePos p = { p with byte := p.byte + 1, bit := 7, sub := 0 })
      ∨ (p.sub = 6 ∧ p.byte = 8 ∧ p.framesLeft = 2 ∧ nextFramePos p = { p with framesLeft := 1, byte := 0, bit := 7, sub := 0 })
      ∨ (p.sub = 6 ∧ p.byte = 8 ∧ p.framesLeft ≠ 2
          ∧ nextFramePos p = { p with step := .done, framesLeft := 0, byte := 0, bit := 7, sub := 0 }) := by
  by_cases h5 : p.sub < 5
  · exact .inl ⟨h5, if_pos h5⟩
  by_cases hs : p.sub = 5
  · by_cases h0 : p.bit = 0
    · exact .inr (.inl ⟨hs, h0, by simp [nextFramePos, hs, h0]⟩)
    · exact .inr (.inr (.inl ⟨hs, h0, by simp [nextFramePos, hs, h0]⟩))
  have h6 : p.sub = 6 := by omega
  by_cases h8 : p.byte < 8
  · exact .inr (.inr (.inr (.inl ⟨h6, h8, by simp [nextFramePos, h6, h8]⟩)))
  have hlast : p.byte = 8 := by omega
  by_cases hk : p.framesLeft = 2
  · exact .inr (.inr (.inr (.inr (.inl ⟨h6, hlast, hk, by simp [nextFramePos, h6, hlast, hk]⟩))))
  · exact .inr (.inr (.inr (.inr (.inr ⟨h6, hlast, hk, by simp [nextFramePos, h6, hlast, hk]⟩))))

/-- Every bit of the end frame is 1 (R80). -/
theorem endFrame_bit (s : State) (k : Fin 8) : ((frame s).getD (8 : Fin 9) 0#8).getLsbD k = true := by
  show (BitVec.allOnes 8).getLsbD k = true
  rw [BitVec.getLsbD_allOnes]
  simp

theorem tickFrame_seq (s : State) : (tickFrame s).seq = nextFramePos s.seq := rfl

theorem Inv.tickFrame_pos (h : Inv s) (hstep : s.seq.step = .frame) : SeqInv (tickFrame s) := by
  obtain ⟨hl, hk, -⟩ := h.frame_pos hstep
  have hl' : (tickFrame s).linked = true := hl
  obtain ⟨hsub, hn⟩ | ⟨-, hbit, hn⟩ | ⟨-, -, hn⟩ | ⟨-, -, hn⟩ | ⟨-, -, -, hn⟩ | ⟨-, -, -, hn⟩ := nextFramePos_cases s.seq
  · have h6 : s.seq.sub + 1 ≠ 6 := by omega
    simp [SeqInv, tickFrame_seq, hn, hstep, hl', hk, h6]
  · simp [SeqInv, tickFrame_seq, hn, hstep, hl', hk, hbit]
  · simp [SeqInv, tickFrame_seq, hn, hstep, hl', hk]
  · simp [SeqInv, tickFrame_seq, hn, hstep, hl', hk]
  · simp [SeqInv, tickFrame_seq, hn, hstep, hl']
  · simp [SeqInv, tickFrame_seq, hn]

theorem Inv.tickFrame_clock (h : Inv s) (hstep : s.seq.step = .frame) : ClockInv (tickFrame s) := by
  have hclk : s.lines.clkLat = true ↔ s.seq.sub = 3 ∨ s.seq.sub = 4 := by simpa [ClockInv, hstep] using h.clock
  rw [ClockInv, (tickFrame_effect s).1, tickFrame_seq]
  obtain ⟨hsub, hn⟩ | ⟨hsub, -, hn⟩ | ⟨hsub, -, hn⟩ | ⟨hsub, -, hn⟩ | ⟨hsub, -, -, hn⟩ | ⟨hsub, -, -, hn⟩ := nextFramePos_cases s.seq
  · simp only [hn, hstep, true_and]
    split_ifs with h2 h4
    · simp [h2]
    · simp [h4]
    · rw [hclk]
      omega
  all_goals simp_all

theorem Inv.tickFrame_data (h : Inv s) (hstep : s.seq.step = .frame) : DataInv (tickFrame s) := by
  have hdata := h.data
  simp only [DataInv, hstep] at hdata
  obtain ⟨count, high⟩ := hdata
  obtain ⟨hlines, hsent⟩ := tickFrame_effect s
  have hhigh : s.seq.byte = 8 → (tickFrame s).lines.dataLat = true := fun h8 => by
    by_cases h0 : s.seq.sub = 0
    · simp only [hlines, h8, h0, if_true, endFrame_bit]
    · simp only [hlines, h0, if_false, high h8 (.inl h0)]
  have sameByte (h6 : s.seq.sub ≠ 6) (hs : (nextFramePos s.seq).step = .frame) (hb : (nextFramePos s.seq).byte = s.seq.byte) :
      DataInv (tickFrame s) := by
    simp only [DataInv, tickFrame_seq, hs, hb]
    exact ⟨by simpa [hsent, h6] using count, fun h8 _ => hhigh h8⟩
  obtain ⟨hsub, hn⟩ | ⟨hsub, -, hn⟩ | ⟨hsub, -, hn⟩ | ⟨hsub, hbyte, hn⟩ | ⟨hsub, hbyte, -, hn⟩ | ⟨hsub, hbyte, -, hn⟩ :=
    nextFramePos_cases s.seq
  · exact sameByte (by omega) (by simp [hn, hstep]) (by simp [hn])
  · exact sameByte (by simp [hsub]) (by simp [hn, hstep]) (by simp [hn])
  · exact sameByte (by simp [hsub]) (by simp [hn, hstep]) (by simp [hn])
  · have hnext : (s.seq.byte + 1).val = s.seq.byte.val + 1 := by omega
    simp only [DataInv, tickFrame_seq, hn, hstep, hsent, hsub, if_true, hnext, frameBytes] at count ⊢
    exact ⟨by omega, by simp⟩
  · simp only [DataInv, tickFrame_seq, hn, hstep, hsent, hsub, if_true, hbyte, frameBytes] at count ⊢
    exact ⟨by omega, by simp⟩
  · have hnine : bytesSent s.trace % 9 = 8 := by simpa [hbyte, frameBytes] using count
    have hone : 1 ≤ framesSent (tickFrame s).trace := by
      simp only [framesSent, frameBytes, hsent, hsub, if_true]
      omega
    have whole : bytesSent (tickFrame s).trace % frameBytes = 0 := by
      simp only [hsent, hsub, if_true, frameBytes]
      omega
    exact FramesWhole.dataInv ⟨whole, by simp [hhigh hbyte, hone], fun _ => hone⟩ (by simp [tickFrame_seq, hn])

theorem Inv.tick_frame (h : Inv s) (hstep : s.seq.step = .frame) : Inv (tick s) := by
  obtain ⟨hl, -⟩ := h.frame_pos hstep
  apply h.of_tick <;> rw [tick_of_frame hstep]
  · intro _ _
    rw [(tickFrame_effect s).1]
    exact h.link hl (not_unlinking (by simp [hstep]))
  · refine busyInv_of_running (h.busy_of_step (by simp [hstep])) ?_
    rw [tickFrame_seq, nextFramePos]
    split_ifs <;> simp [hstep]
  · exact h.tickFrame_pos hstep
  · exact h.tickFrame_clock hstep
  · exact h.tickFrame_data hstep

/-! #### Any position -/

theorem Inv.after_tick (h : Inv s) (hb : s.busy = true) : Inv (tick s) := by
  cases hstep : s.seq.step with
  | idle => exact absurd hstep (h.busy.1.1 hb)
  | power => exact h.tick_power hstep
  | init => exact h.tick_init hstep
  | frame => exact h.tick_frame hstep
  | done => exact h.tick_done hstep

end Ticks

/-! ### What one step can do -/

/-- What the outside writes of the state (R38, R112): the port's answer, a held write, the time, the inputs to come. A write it takes into
`held` has not completed (R46). -/
def OutsideOnly (s u : State) : Prop :=
  u = { s with rdata := u.rdata, ready := u.ready, held := u.held, nowMs := u.nowMs, inputs := u.inputs } ∧ (HeldInv s → HeldInv u)

/-- What the block does in a step but a reset, what the outside does being done: nothing, a tick of a running command, or, idle, one word
accepted (R46) or run whole (R13). -/
def BlockMoves (u t : State) : Prop :=
  t = u ∨ (u.busy = true ∧ t = tick u) ∨ (u.busy = false ∧ ∃ w, t = accept w u ∨ runWord w u = .next t)

/-- What one step but a reset can do. -/
def Moves (s t : State) : Prop := ∃ u, OutsideOnly s u ∧ BlockMoves u t

theorem outsideOnly_refl (s : State) : OutsideOnly s s := ⟨rfl, id⟩

theorem OutsideOnly.trans {s u t : State} (h : OutsideOnly s u) (h' : OutsideOnly u t) : OutsideOnly s t := by
  obtain ⟨hu, held⟩ := h
  obtain ⟨ht, held'⟩ := h'
  refine ⟨?_, held' ∘ held⟩
  rw [ht, hu]

theorem OutsideOnly.moves {s u : State} (h : OutsideOnly s u) : Moves s u := ⟨u, h, .inl rfl⟩

theorem Moves.of_outside {s u t : State} (h : OutsideOnly s u) (ht : Moves u t) : Moves s t := by
  obtain ⟨v, h', hv⟩ := ht
  exact ⟨v, h.trans h', hv⟩

theorem advance_of_busy {s : State} (hb : s.busy = true) : advance s = tick s := by simp [advance, hb]

theorem advance_of_held {s : State} {w : Word} (hb : s.busy = false) (hh : s.held = some w) :
    advance s = accept w { s with held := none, ready := true } := by simp [advance, hb, hh]

theorem advance_of_idle {s : State} (hb : s.busy = false) (hh : s.held = none) : advance s = s := by simp [advance, hb, hh]

theorem advance_moves (s : State) : Moves s (advance s) := by
  cases hb : s.busy with
  | true => exact ⟨s, outsideOnly_refl s, .inr (.inl ⟨hb, advance_of_busy hb⟩)⟩
  | false =>
    cases hh : s.held with
    | some w =>
      have taken : OutsideOnly s { s with held := none, ready := true } := ⟨rfl, fun _ hn => absurd rfl hn⟩
      exact ⟨_, taken, .inr (.inr ⟨hb, w, .inl (advance_of_held hb hh)⟩)⟩
    | none => rw [advance_of_idle hb hh]; exact (outsideOnly_refl s).moves

theorem outsideOnly_free {s : State} (hh : s.held = none) (rdata : Word) (ready : Bool) (now : Word) (inputs : List Input) :
    OutsideOnly s { s with rdata := rdata, ready := ready, nowMs := now, inputs := inputs } :=
  ⟨rfl, fun _ hn => absurd hh hn⟩

theorem portAccess_moves {s : State} (hh : s.held = none) (x : PortAccess) : Moves s (portAccess x s) := by
  cases x with
  | read a => exact (outsideOnly_free hh (portView a s) true s.nowMs s.inputs).moves
  | write a d =>
    simp only [portAccess, portWrite]
    split_ifs with ha hb
    · exact OutsideOnly.moves ⟨rfl, fun _ _ => rfl⟩
    · exact ⟨_, outsideOnly_free hh s.rdata true s.nowMs s.inputs, .inr (.inr ⟨by simpa using hb, d, .inl rfl⟩)⟩
    · exact (outsideOnly_free hh s.rdata true s.nowMs s.inputs).moves

theorem bridgeAccess_moves {s t : State} (hh : s.held = none) {offset count : ℕ} {x : PortAddr → PortAccess}
    (h : bridgeAccess offset count x s = .next t) : Moves s t := by
  unfold bridgeAccess at h
  split_ifs at h
  cases h
  exact portAccess_moves hh _

/-- While a CMD write is held every transfer and date waits for it (R46, R47, log 19). -/
theorem present_of_held {s : State} {w : Word} (hh : s.held = some w) {x : Input} (hx : IsTransfer x) (rest : List Input) :
    present x rest s = .next (advance s) := by
  obtain ⟨w, rfl⟩ | ⟨a, rfl⟩ | rfl | ⟨n, rfl⟩ | ⟨o, n, rfl⟩ | ⟨o, bs, rfl⟩ := hx <;> simp [present, hostFree, hh]

theorem transfer_moves {s t : State} {x : Input} {rest : List Input} (hx : IsTransfer x) (h : present x rest s = .next t) :
    Moves s t := by
  cases hh : s.held with
  | some w =>
    rw [present_of_held hh hx] at h
    cases h
    exact advance_moves s
  | none =>
    have taken : OutsideOnly s { s with inputs := rest } := ⟨rfl, id⟩
    have hf : hostFree s = true := by simp [hostFree, hh]
    obtain ⟨w, rfl⟩ | ⟨a, rfl⟩ | rfl | ⟨n, rfl⟩ | ⟨o, n, rfl⟩ | ⟨o, bs, rfl⟩ := hx
    · cases hb : s.busy with
      | false =>
        have hrun : runWord w { s with inputs := rest, ready := true } = .next t := by simpa [present, hf, hb] using h
        exact ⟨_, outsideOnly_free hh s.rdata true s.nowMs rest, .inr (.inr ⟨hb, w, .inr hrun⟩)⟩
      | true =>
        obtain rfl : advance { s with ready := false } = t := by simpa [present, hf, hb] using h
        exact (advance_moves _).of_outside (outsideOnly_free hh s.rdata false s.nowMs s.inputs)
    · obtain rfl : portAccess a { s with inputs := rest } = t := by simpa [present, hf] using h
      exact (portAccess_moves (s := { s with inputs := rest }) hh a).of_outside taken
    · cases hb : s.busy with
      | false =>
        obtain rfl : portRead 1#3 { s with inputs := rest } = t := by simpa [present, hf, hb] using h
        exact (outsideOnly_free hh _ true s.nowMs rest).moves
      | true =>
        obtain rfl : advance (portRead 1#3 s) = t := by simpa [present, hf, hb] using h
        exact (advance_moves _).of_outside (outsideOnly_free hh _ true s.nowMs s.inputs)
    · obtain rfl : { s with inputs := rest, nowMs := n } = t := by simpa [present, hf] using h
      exact OutsideOnly.moves ⟨rfl, id⟩
    · exact (bridgeAccess_moves (s := { s with inputs := rest }) hh (by simpa [present, hf] using h)).of_outside taken
    · exact (bridgeAccess_moves (s := { s with inputs := rest }) hh (by simpa [present, hf, bridgeWrite] using h)).of_outside taken

/-- Every step is a reset, or it moves the state in one of the ways of `Moves`. -/
theorem step_cases {s t : State} (h : step s = .next t) :
    (∃ x rest, s.inputs = .reset x :: rest ∧ t = resetBlock x { s with inputs := rest }) ∨ Moves s t := by
  cases hin : s.inputs with
  | nil =>
    rw [step_of_no_input hin] at h
    cases h
    exact .inr (advance_moves s)
  | cons x rest =>
    rw [step_of_input hin] at h
    cases x with
    | time n => cases h; exact .inr (OutsideOnly.moves ⟨rfl, id⟩)
    | tick => cases h; exact .inr (.of_outside (u := { s with inputs := rest }) ⟨rfl, id⟩ (advance_moves _))
    | reset x => cases h; exact .inl ⟨x, rest, rfl, rfl⟩
    | secondHost => cases h
    | _ => exact .inr (transfer_moves (by simp [IsTransfer]) h)

/-! ### Every step keeps the invariant -/

theorem Inv.after_outside {s u : State} (h : Inv s) (ho : OutsideOnly s u) : Inv u := by
  obtain ⟨hu, hheld⟩ := ho
  have held := hheld h.heldWrite
  rw [hu] at held ⊢
  exact ⟨h.link, h.busy, h.pos, h.clock, h.data, h.err, h.replayed, held⟩

theorem Inv.after_moves {s t : State} (h : Inv s) (hm : Moves s t) : Inv t := by
  obtain ⟨u, ho, hmove⟩ := hm
  have hu := h.after_outside ho
  obtain rfl | ⟨hb, rfl⟩ | ⟨hb, w, rfl | hrun⟩ := hmove
  · exact hu
  · exact hu.after_tick hb
  · exact (hu.atRest hb).accept_inv w
  · exact ((hu.atRest hb).after_runWord w hrun).inv

theorem Inv.after_step {s t : State} (h : Inv s) (ht : step s = .next t) : Inv t := by
  rcases step_cases ht with ⟨x, rest, -, rfl⟩ | hm
  · exact (atRest_resetBlock x _).inv
  · exact h.after_moves hm

end Sys2Proof.Machine

open Sys2Proof Sys2Proof.Machine

/-- Settles O53: a step is a reset, or something of the outside and then nothing, a tick, an accepted word or a whole command, and each of
these keeps the invariant. -/
theorem everyStepKeepsTheInvariant : Obligations.EveryStepKeepsTheInvariant := fun _ _ h ht => h.after_step ht

/-- Settles O54: reset leaves the block at rest, whatever is outside it. -/
theorem resetHasTheInvariant : Obligations.ResetHasTheInvariant := fun inputs now cfg => (atRest_reset 0#32 now cfg inputs).inv

end

section
/-!
PROOFS. Family 10_state.md, what follows from the invariant along runs (O55, O57), and what the LED samples (O32).
-/

namespace Sys2Proof.Machine

/-! ### Runs -/

/-- A property that every step keeps holds after a run. -/
theorem run_keeps {P : State → Prop} (hstep : ∀ s t, P s → step s = .next t → P t) {n : ℕ} {s t : State} (hs : P s)
    (hrun : Host.Core.run core n s = .next t) : P t := by
  induction n generalizing s with
  | zero => cases hrun; exact hs
  | succ n ih =>
    cases h : step s with
    | next u =>
      rw [run_succ_of_step h] at hrun
      exact ih (hstep s u hs h) hrun
    | fault r => simp [Host.Core.run, show core.step s = .fault r from h] at hrun
    | refused r => simp [Host.Core.run, show core.step s = .refused r from h] at hrun

/-- At the command level a command or an illegal word leaves `busy`, the held write and the inputs to come as they are (R13). -/
theorem runWord_port {w : Word} {s t : State} (h : runWord w s = .next t) :
    t.busy = s.busy ∧ t.held = s.held ∧ t.inputs = s.inputs := by
  cases hd : decode w with
  | error e =>
    rw [runWord_of_illegal hd] at h
    cases h
    simp
  | ok i =>
    rw [runWord_of_decode hd] at h
    cases i with
    | setPwr en => cases en <;> cases h <;> exact ⟨rfl, rfl, rfl⟩
    | cycle interval =>
      cases h
      split
      · rcases cycleTransmit_cases (advanceWheel interval s) with hc | hc <;> simp [hc]
      · exact ⟨rfl, rfl, rfl⟩
    | _ => cases h; simp [storePacked, clearPixel]

/-- The block is idle, with no write held and none presented event by event. -/
def AtCommandLevel (s : State) : Prop := s.busy = false ∧ s.held = none ∧ ∀ x ∈ s.inputs, ¬IsEventLevelWrite x

theorem step_keeps_atCommandLevel (s t : State) (hs : AtCommandLevel s) (h : step s = .next t) : AtCommandLevel t := by
  obtain ⟨hb, hh, hin⟩ := hs
  have hf : hostFree s = true := by simp [hostFree, hh]
  cases hi : s.inputs with
  | nil =>
    rw [step_of_no_input hi, advance_of_idle hb hh] at h
    cases h
    exact ⟨hb, hh, hin⟩
  | cons x rest =>
    rw [step_of_input hi] at h
    simp only [hi, List.forall_mem_cons] at hin
    obtain ⟨hx, hrest⟩ := hin
    cases x with
    | command w =>
      obtain ⟨hb', hh', hin'⟩ := runWord_port (s := { s with inputs := rest, ready := true }) (w := w) (t := t)
        (by simpa [present, hf, hb] using h)
      exact ⟨hb'.trans hb, hh'.trans hh, hin' ▸ hrest⟩
    | access a =>
      cases a with
      | write a d => exact absurd (.inl ⟨a, d, rfl⟩) hx
      | read a =>
        obtain rfl : portRead a { s with inputs := rest } = t := by simpa [present, hf, portAccess] using h
        exact ⟨hb, hh, hrest⟩
    | waitIdle =>
      obtain rfl : portRead 1#3 { s with inputs := rest } = t := by simpa [present, hf, hb] using h
      exact ⟨hb, hh, hrest⟩
    | date n =>
      obtain rfl : { s with inputs := rest, nowMs := n } = t := by simpa [present, hf] using h
      exact ⟨hb, hh, hrest⟩
    | time n => cases h; exact ⟨hb, hh, hrest⟩
    | tick =>
      obtain rfl : { s with inputs := rest } = t := by
        simpa [present, advance_of_idle (s := { s with inputs := rest }) hb hh] using h
      exact ⟨hb, hh, hrest⟩
    | reset x => cases h; exact ⟨rfl, rfl, hrest⟩
    | bridgeRead o n =>
      simp only [present, hf, if_true, bridgeAccess, portAccess] at h
      split_ifs at h
      cases h
      exact ⟨hb, hh, hrest⟩
    | bridgeWrite o bs => exact absurd (.inr ⟨o, bs, rfl⟩) hx
    | secondHost => cases h

/-! ### A running command ends -/

/-- No more ticks than these are left of a running command (R23): one an event, and one each to link, to unlink and to end. -/
def SeqPos.ticksLeft (p : SeqPos) : ℕ :=
  match p.step with
  | .idle => 0
  | .power => 8 - p.sub + 441 * p.framesLeft
  | .init => 5 - p.sub + 441 * p.framesLeft
  | .frame => 441 * (p.framesLeft - 1) + 49 * (8 - p.byte) + 6 * p.bit + 8 - p.sub
  | .done => 1

theorem SeqPos.ticksLeft_le (p : SeqPos) : p.ticksLeft ≤ 890 := by
  have hk := p.framesLeft.isLt
  have hbyte := p.byte.isLt
  have hbit := p.bit.isLt
  unfold SeqPos.ticksLeft
  split <;> omega

/-- Every event of a frame leaves fewer ticks. -/
theorem ticksLeft_nextFramePos {p : SeqPos} (hstep : p.step = .frame) (hk : 1 ≤ p.framesLeft) (hgap : p.sub = 6 → p.bit = 0) :
    (nextFramePos p).ticksLeft < p.ticksLeft := by
  have hk' : 1 ≤ p.framesLeft.val := hk
  obtain ⟨hsub, hn⟩ | ⟨hsub, hbit, hn⟩ | ⟨hsub, hbit, hn⟩ | ⟨hsub, hbyte, hn⟩ | ⟨hsub, hbyte, hk2, hn⟩ | ⟨hsub, hbyte, -, hn⟩ :=
    nextFramePos_cases p
  · have hlt : p.sub.val < 5 := hsub
    have hs : (p.sub + 1).val = p.sub.val + 1 := Fin.val_add_one_of_lt' (by omega)
    simp only [hn, SeqPos.ticksLeft, hstep, hs]
    omega
  · simp [hn, SeqPos.ticksLeft, hstep, hsub, hbit]
  · have hb : (p.bit - 1).val = p.bit.val - 1 := Fin.val_sub_one_of_ne_zero hbit
    have hpos : p.bit.val ≠ 0 := Fin.val_ne_zero_iff.mpr hbit
    simp [hn, SeqPos.ticksLeft, hstep, hsub, hb]
    omega
  · have hlt : p.byte.val < 8 := hbyte
    have hb : (p.byte + 1).val = p.byte.val + 1 := Fin.val_add_one_of_lt' (by omega)
    simp [hn, SeqPos.ticksLeft, hstep, hsub, hb, hgap hsub]
    omega
  · simp [hn, SeqPos.ticksLeft, hstep, hsub, hbyte, hk2, hgap hsub]
  · simp [hn, SeqPos.ticksLeft, hstep, hsub, hbyte, hgap hsub]

/-- In POWER and INIT one event further on fewer ticks are left. -/
theorem ticksLeft_sub_succ {p : SeqPos} (hstep : p.step = .power ∨ p.step = .init) (hsub : p.sub ≤ 2) :
    ({ p with sub := p.sub + 1 } : SeqPos).ticksLeft < p.ticksLeft := by
  have hle : p.sub.val ≤ 2 := hsub
  have hs : (p.sub + 1).val = p.sub.val + 1 := Fin.val_add_one_of_lt' (by omega)
  rcases hstep with h | h <;> simp only [SeqPos.ticksLeft, h, hs] <;> omega

theorem Inv.tick_ticksLeft_lt {s : State} (h : Inv s) (hb : s.busy = true) : (tick s).seq.ticksLeft < s.seq.ticksLeft := by
  cases hstep : s.seq.step with
  | idle => exact absurd hstep (h.busy.1.1 hb)
  | done => simp [tick, hstep, SeqPos.ticksLeft, idlePos]
  | frame =>
    obtain ⟨-, hk, hgap⟩ := h.frame_pos hstep
    rw [tick_of_frame hstep, tickFrame_seq]
    exact ticksLeft_nextFramePos hstep hk hgap
  | init =>
    obtain ⟨hsub, -, -, hk, -⟩ := h.init_pos hstep
    have hk' : 1 ≤ s.seq.framesLeft.val := hk
    rw [tick_of_init hstep]
    by_cases h3 : s.seq.sub = 3
    · simp [tickInit, h3, SeqPos.ticksLeft, hstep]
      omega
    · obtain ⟨e, hnext, -⟩ := h.tickInit_event hstep (by omega)
      rw [hnext]
      exact ticksLeft_sub_succ (.inr hstep) (by omega)
  | power =>
    have hpos := h.pos
    simp only [SeqInv, hstep] at hpos
    obtain ⟨hsub | ⟨h3, -⟩, -⟩ := hpos
    · rw [tick_of_power hstep]
      cases hoff : seqPowerOff s with
      | true => rw [tickPower_off hoff hsub]; exact ticksLeft_sub_succ (.inl hstep) hsub
      | false =>
        rcases lt_or_eq_of_le hsub with hlt | heq
        · rw [tickPower_on hoff hlt]; exact ticksLeft_sub_succ (.inl hstep) hsub
        · rw [tickPower_last hoff heq]
          cases hset : seqIsSetPwr s <;> simp [SeqPos.ticksLeft, hstep, heq]
          omega
    · simp [tick_of_power hstep, tickPower_unlink h3, SeqPos.ticksLeft, hstep, h3]
      omega

/-- With nothing presented, a running command ends within the ticks left of it. -/
theorem Inv.run_to_end {s : State} (h : Inv s) (hin : s.inputs = []) :
    ∃ n t, n ≤ s.seq.ticksLeft ∧ Host.Core.run core n s = .next t ∧ t.busy = false ∧ t.seq = idlePos ∧ t.held = s.held := by
  induction hm : s.seq.ticksLeft using Nat.strong_induction_on generalizing s with
  | _ m ih =>
    cases hb : s.busy with
    | false => exact ⟨0, s, by omega, rfl, hb, h.busy.2 hb, rfl⟩
    | true =>
      have hlt := h.tick_ticksLeft_lt hb
      obtain ⟨n, t, hn, hrun, hend⟩ := ih _ (hm ▸ hlt) (h.after_tick hb) ((tick_inputs s).trans hin) rfl
      exact ⟨n + 1, t, by omega, (run_succ_of_step (step_tick hin hb) n).trans hrun, by simpa using hend⟩

/-! ### What the LED samples -/

theorem ledSamples_append (l : Lines) (es fs : List WireEvent) :
    ledSamples l (es ++ fs) = ledSamples l es ++ ledSamples (replay es l) fs := by
  induction es generalizing l with
  | nil => rfl
  | cons e es ih =>
    simp only [List.cons_append, ledSamples, replay_cons, ih]
    split <;> rfl

/-- On lines that are up, the clock latch low, one bit is sampled as it is sent (R88, R92). -/
theorem ledSamples_bitEvents {l : Lines} (hup : LinesUp l) (hc : l.clkLat = false) (b : Bool) : ledSamples l (bitEvents b) = [b] := by
  obtain ⟨-, hd, hk⟩ := hup
  simp [ledSamples, bitEvents, applyEvent, lineClk, lineData, hd, hk, hc]

theorem ledSamples_bits {l : Lines} (hup : LinesUp l) (hc : l.clkLat = false) (bs : List Bool) :
    ledSamples l (bs.flatMap bitEvents) = bs := by
  induction bs generalizing l with
  | nil => rfl
  | cons b bs ih =>
    have hrest : ledSamples (replay (bitEvents b) l) (bs.flatMap bitEvents) = bs := ih (by rw [replay_bitEvents]; exact hup) rfl
    rw [List.flatMap_cons, ledSamples_append, ledSamples_bitEvents hup hc, hrest]
    rfl

theorem ledSamples_byteEvents {l : Lines} (hup : LinesUp l) (hc : l.clkLat = false) (v : Byte) :
    ledSamples l (byteEvents v) = bitsMsbFirst v := by
  rw [byteEvents, ledSamples_append, ledSamples_bits hup hc]
  simp [ledSamples, applyEvent]

theorem ledSamples_bytesEvents {l : Lines} (hup : LinesUp l) (hc : l.clkLat = false) (vs : List Byte) :
    ledSamples l (bytesEvents vs) = vs.flatMap bitsMsbFirst := by
  induction vs generalizing l with
  | nil => rfl
  | cons v vs ih =>
    have hrest : ledSamples (replay (byteEvents v) l) (bytesEvents vs) = vs.flatMap bitsMsbFirst :=
      ih (by rw [replay_byteEvents]; exact hup) (by rw [replay_byteEvents])
    rw [show bytesEvents (v :: vs) = byteEvents v ++ bytesEvents vs from rfl, ledSamples_append, hrest, ledSamples_byteEvents hup hc,
      List.flatMap_cons]

/-- Events that leave the clock latch low make no clock edge. -/
theorem ledSamples_of_clkLow {l : Lines} {es : List WireEvent} (hc : l.clkLat = false) (he : ∀ e ∈ es, e ≠ .set .clk true) :
    ledSamples l es = [] := by
  induction es generalizing l with
  | nil => rfl
  | cons e es ih =>
    rw [List.forall_mem_cons] at he
    have hc' : (applyEvent l e).clkLat = false := by
      obtain ⟨he, -⟩ := he
      cases e with
      | set line level => cases line <;> simp_all [applyEvent]
      | mode line m => cases line <;> exact hc
      | _ => exact hc
    simp [ledSamples, lineClk, hc', ih hc' he.2]

theorem ledSamples_transmitEvents {s : State} (hc : s.lines.clkLat = false) (hup : s.linked = true → LinesUp s.lines) :
    ledSamples s.lines (transmitEvents s) = (frame s).flatMap bitsMsbFirst := by
  rw [transmitEvents, ledSamples_append]
  cases hl : s.linked with
  | true => exact ledSamples_bytesEvents (hup hl) hc (frame s)
  | false =>
    have hinit : ledSamples s.lines lazyInitEvents = [] := ledSamples_of_clkLow hc (by simp [lazyInitEvents, powerEnableEvents])
    simp only [Bool.false_eq_true, if_false, hinit, List.nil_append]
    exact ledSamples_bytesEvents ⟨rfl, rfl, rfl⟩ rfl (frame s)

end Sys2Proof.Machine

open Sys2Proof Sys2Proof.Machine

/-- Settles O57: every tick leaves fewer ticks of the running command, of which there are at most 890. -/
theorem runningCommandEnds : Obligations.RunningCommandEnds := by
  intro s h _ hin
  obtain ⟨n, t, hn, hend⟩ := h.run_to_end hin
  exact ⟨n, t, hn.trans s.seq.ticksLeft_le, hend⟩

/-- Settles O32: lazy initialisation and SETPWR keep the clock latch low, and on lines that are up each bit sent is one bit sampled. -/
theorem ledSamplesTheFrameBits : Obligations.LedSamplesTheFrameBits := by
  intro s hc hup
  exact ⟨transmitEvents s, transmit_trace s, ledSamples_transmitEvents hc hup,
    ledSamples_of_clkLow hc (by simp [powerEnableEvents]), ledSamples_of_clkLow hc (by simp [powerDisableEvents])⟩

/-- Settles O55: reachable states meet the invariant, and without event-level writes every step stays between commands. -/
theorem reachableStatesMeetTheRules : Obligations.ReachableStatesMeetTheRules := by
  intro inputs now cfg n t hrun
  have h : Inv t := run_keeps (fun _ _ h ht => h.after_step ht) (atRest_reset 0#32 now cfg inputs).inv hrun
  refine ⟨fun hpoint hl => h.link hl ?_, fun hb => ?_, fun hb => ?_, h.err, fun hx => ?_⟩
  · rcases hpoint with hb | hu
    · obtain ⟨-, hq, -⟩ := h.atRest hb
      exact not_unlinking (by simp [hq, idlePos])
    · exact hu
  · obtain ⟨-, -, -, clkLow, -⟩ := h.atRest hb
    exact clkLow
  · obtain ⟨-, -, -, -, ⟨-, high, -⟩, -⟩ := h.atRest hb
    exact high
  · obtain ⟨hb, -⟩ := run_keeps step_keeps_atCommandLevel ⟨rfl, rfl, hx⟩ hrun
    exact hb

end

section
/-!
PROOFS. Family 10_state.md, what the port and the pins show (O9, O10, O11).
-/

namespace Sys2Proof.Machine

/-! ### The port's views -/

/-- A STATUS bit stands in its place alone (R29). -/
theorem statusBit_getLsbD (b : Bool) {n : ℕ} (hn : n < 32) (k : ℕ) : (statusBit b n).getLsbD k = (b && decide (k = n)) := by
  simp only [statusBit, BitVec.getLsbD_shiftLeft, BitVec.getLsbD_setWidth, BitVec.getLsbD_ofBool]
  by_cases hk : k = n
  · simp [hk, hn]
  · simp [hk]
    omega

/-- STATUS bit by bit (R29). -/
theorem statusView_getLsbD (s : State) (k : ℕ) :
    (statusView s).getLsbD k =
      [s.busy, s.linked, !s.lines.pwrN, s.ill, s.cycArmed, s.lines.dataMode == .out, s.lines.clkMode == .out, s.lines.dataLat,
        s.lines.clkLat].getD k false := by
  simp (disch := norm_num) only [statusView, powered, BitVec.getLsbD_or, statusBit_getLsbD]
  match k with
  | 0 | 1 | 2 | 3 | 4 | 5 | 6 | 7 | 8 => simp
  | k + 9 => simp

theorem portWrite_of_readOnly {a : PortAddr} (ha : a ≠ 0#3) (d : Word) (s : State) : portWrite a d s = { s with ready := true } :=
  if_neg ha

theorem portView_reset (a : PortAddr) : portView a State.reset = 0#32 := by
  unfold portView
  split_ifs <;> rfl

/-- PIXEL as a number (R30). -/
theorem pixelView_toNat (s : State) :
    (pixelView s).toNat = s.pixelR.toNat * 2 ^ 16 + s.pixelG.toNat * 2 ^ 8 + s.pixelB.toNat := by
  have hzero : (0#8 ++ s.pixelR : BitVec 16).toNat = s.pixelR.toNat := by
    rw [show BitVec.toNat (w := 16) (0#8 ++ s.pixelR) = _ from BitVec.toNat_append _ _]
    simp
  have hrg : (0#8 ++ s.pixelR ++ s.pixelG : BitVec 24).toNat = s.pixelR.toNat * 2 ^ 8 + s.pixelG.toNat := by
    rw [show BitVec.toNat (w := 24) (0#8 ++ s.pixelR ++ s.pixelG) = _ from BitVec.toNat_append _ _, hzero,
      ← Nat.shiftLeft_add_eq_or_of_lt s.pixelG.isLt, Nat.shiftLeft_eq]
  rw [pixelView, show BitVec.toNat (w := 32) (0#8 ++ s.pixelR ++ s.pixelG ++ s.pixelB) = _ from BitVec.toNat_append _ _, hrg,
    ← Nat.shiftLeft_add_eq_or_of_lt s.pixelB.isLt, Nat.shiftLeft_eq]
  ring

/-- PIXEL reads back the packed value SETPIXP stored (R30, R74). -/
theorem pixelView_storePacked (v : Packed) (s : State) : pixelView (storePacked v s) = v.setWidth 32 := by
  have hv := v.isLt
  apply BitVec.eq_of_toNat_eq
  simp only [pixelView_toNat, storePacked, storePixel_pixelR, storePixel_pixelG, storePixel_pixelB, packedRed, packedGreen,
    packedBlue, BitVec.extractLsb'_toNat, BitVec.toNat_setWidth, Nat.shiftRight_eq_div_pow]
  omega

/-- Transmit leaves PIXEL as it is (R76). -/
theorem pixelView_transmit (s : State) : pixelView (transmit s) = pixelView s := by
  simp [pixelView]

end Sys2Proof.Machine

open Sys2Proof Sys2Proof.Machine

/-- Settles O9, from STATUS bit by bit. -/
theorem statusShowsEachBit : Obligations.StatusShowsEachBit := by
  refine ⟨fun s => ?_, portView_reset _, fun d s => portWrite_of_readOnly (by simp) d s⟩
  simp only [show portView 1#3 s = statusView s from rfl, statusView_getLsbD]
  refine ⟨rfl, rfl, rfl, rfl, rfl, rfl, rfl, rfl, rfl, fun k hk => ?_⟩
  exact List.getD_eq_default _ _ hk

/-- Settles O10: the views are the fields, and PIXEL after SETPIXP joins the channels the packed value was
taken apart into. -/
theorem readbackRegistersShowState : Obligations.ReadbackRegistersShowState := by
  refine ⟨fun s => ⟨rfl, rfl, rfl, rfl, rfl, rfl⟩, portView_reset, fun a d s ha => portWrite_of_readOnly ha d s, fun v s => ?_⟩
  exact ⟨_, rfl, (pixelView_transmit _).trans (pixelView_storePacked v s)⟩

/-- Settles O11, by the mode of each line. -/
theorem pinsFollowTheLineState : Obligations.PinsFollowTheLineState := by
  intro s
  refine ⟨rfl, rfl, rfl, fun h => ?_, fun h => ?_, fun h => ?_, fun h => ?_, rfl, rfl⟩ <;> simp [pins, lineData, lineClk, h]

end

section
/-!
PROOFS. Family 20_memory.md, the port: reads and writes (O12, O13), a held CMD write (O14), the accept cycle (O15), the bridge (O16), and the end
of WAITIDLE (O58); and that steps only append wire events (O52).
-/

namespace Sys2Proof.Machine

variable {s t : State} {rest : List Input}

/-! ### One step, input by input -/

/-- A transfer of a host that holds no write is taken at once (R47). -/
theorem step_of_access (hh : s.held = none) {x : PortAccess} (h : s.inputs = .access x :: rest) :
    step s = .next (portAccess x { s with inputs := rest }) := by
  simp [step_of_input h, present, hostFree, hh]

/-- The same, the transfer put in the place of whatever was to come. -/
theorem step_with_access (hh : s.held = none) (x : PortAccess) (rest : List Input) :
    step { s with inputs := .access x :: rest } = .next (portAccess x { s with inputs := rest }) :=
  step_of_access (s := { s with inputs := .access x :: rest }) hh rfl

/-- A bridge read of a host that holds no write is taken at once (R41). -/
theorem step_of_bridgeRead (hh : s.held = none) {offset count : ℕ} (h : s.inputs = .bridgeRead offset count :: rest) :
    step s = bridgeAccess offset count .read { s with inputs := rest } := by
  simp [step_of_input h, present, hostFree, hh]

/-- A bridge write of a host that holds no write is taken at once (R41). -/
theorem step_of_bridgeWrite (hh : s.held = none) {offset : ℕ} {bytes : List Byte} (h : s.inputs = .bridgeWrite offset bytes :: rest) :
    step s = bridgeWrite offset bytes { s with inputs := rest } := by
  simp [step_of_input h, present, hostFree, hh]

/-- A transfer or a date presented while a write is held waits, and the block runs on (R46, R47, log 19). -/
theorem step_of_transfer_held {w : Word} (hh : s.held = some w) {x : Input} (hx : IsTransfer x) (h : s.inputs = x :: rest) :
    step s = .next (advance s) :=
  (step_of_input h).trans (present_of_held hh hx rest)

/-- WAITIDLE on a busy block reads STATUS and lets the running command's next event take place (R65, log 24). -/
theorem step_of_waitIdle_busy (hb : s.busy = true) (hh : s.held = none) (h : s.inputs = .waitIdle :: rest) :
    step s = .next (tick (portRead 1#3 s)) := by
  simp [step_of_input h, present, hostFree, advance, hb, hh]

/-- WAITIDLE on an idle block ends with its read of STATUS (R49, R65). -/
theorem step_of_waitIdle_idle (hb : s.busy = false) (hh : s.held = none) (h : s.inputs = .waitIdle :: rest) :
    step s = .next (portRead 1#3 { s with inputs := rest }) := by
  simp [step_of_input h, present, hostFree, hb, hh]

/-- With the block idle, a SHOW word is one Transmit (R77). -/
theorem step_of_show (hi : Idle s) (h : s.inputs = .command 0x06000000#32 :: rest) :
    step s = .next (transmit { s with inputs := rest, ready := true }) :=
  (step_of_command hi h).trans (runWord_of_decode (show decode 0x06000000#32 = .ok .showPixel by decide) _)

/-! ### Steps append wire events -/

/-- From `s` to `t` wire events are only added at the end of the trace, and the lines are what these have made of them (R12, R90). -/
def Appends (s t : State) : Prop := ∃ es, t.trace = s.trace ++ es ∧ t.lines = replay es s.lines

theorem appends_of_eq (ht : t.trace = s.trace) (hl : t.lines = s.lines) : Appends s t :=
  ⟨[], by rw [ht, List.append_nil], hl⟩

theorem Appends.trans {u : State} (h : Appends s t) (h' : Appends t u) : Appends s u := by
  obtain ⟨es, ht, hl⟩ := h
  obtain ⟨fs, ht', hl'⟩ := h'
  exact ⟨es ++ fs, by rw [ht', ht, List.append_assoc], by rw [hl', hl, replay_append]⟩

theorem appends_transmit (s : State) : Appends s (transmit s) :=
  ⟨transmitEvents s, transmit_trace s, by rw [transmit_lines, replay_transmitEvents]⟩

theorem appends_cycleTransmit (s : State) : Appends s (cycleTransmit s) := by
  rcases cycleTransmit_cases s with h | h <;> rw [h]
  · exact (appends_transmit s).trans (appends_transmit _)
  · exact appends_transmit s

/-- Every command only appends its wire events (R13). -/
theorem appends_exec {i : Instr} (h : exec i s = .next t) : Appends s t := by
  cases i <;> cases h
  case setPwr en => cases en <;> [exact ⟨powerDisableEvents, rfl, rfl⟩; exact ⟨powerEnableEvents, rfl, rfl⟩]
  case setBri level => exact appends_of_eq rfl rfl
  case setPix r g b => exact appends_transmit (storePixel r g b s)
  case setPixP packed => exact appends_transmit (storePacked packed s)
  case clear => exact appends_transmit (clearPixel s)
  case showPixel => exact appends_transmit s
  case cycle interval =>
    split
    · exact appends_cycleTransmit (advanceWheel interval s)
    · exact appends_of_eq rfl rfl
  case color r g b => exact appends_of_eq rfl rfl

theorem appends_runWord {w : Word} (h : runWord w s = .next t) : Appends s t := by
  cases hd : decode w with
  | ok i => exact appends_exec (by rwa [runWord_of_decode hd] at h)
  | error e =>
    rw [runWord_of_illegal hd] at h
    cases h
    exact appends_of_eq rfl rfl

/-- The accept cycle emits nothing (R46). -/
theorem startCommand_wire (i : Instr) (w : Word) (s : State) :
    (startCommand i w s).trace = s.trace ∧ (startCommand i w s).lines = s.lines := by
  cases i with
  | cycle interval =>
    rw [startCommand]
    split <;> exact ⟨rfl, rfl⟩
  | _ => exact ⟨rfl, rfl⟩

theorem appends_accept (w : Word) (s : State) : Appends s (accept w s) := by
  cases hd : decode w with
  | ok i =>
    obtain ⟨ht, hl⟩ := startCommand_wire i w s
    rw [accept_of_decode hd]
    exact appends_of_eq ht hl
  | error e => rw [accept_of_illegal hd]; exact appends_of_eq rfl rfl

theorem OutsideOnly.appends (h : OutsideOnly s t) : Appends s t := by
  obtain ⟨ht, -⟩ := h
  rw [ht]
  exact appends_of_eq rfl rfl

theorem Moves.appends (h : Moves s t) : Appends s t := by
  obtain ⟨u, ho, hmove⟩ := h
  refine ho.appends.trans ?_
  obtain rfl | ⟨-, rfl⟩ | ⟨-, w, rfl | hrun⟩ := hmove
  · exact appends_of_eq rfl rfl
  · exact tick_events u
  · exact appends_accept w u
  · exact appends_runWord hrun

/-! ### The accept cycle -/

/-- The commands without wire events (R46): SETBRI, COLOR, an ineligible CYCLE. -/
def EmitsNothing (i : Instr) (s : State) : Prop :=
  (∃ l, i = .setBri l) ∨ (∃ r g b, i = .color r g b) ∨ ((∃ iv, i = .cycle iv) ∧ eligible s = false)

theorem transmitEvents_ne_nil (s : State) : transmitEvents s ≠ [] := by
  intro h
  have := bytesSent_transmitEvents s
  simp [h, bytesSent, frameBytes] at this

theorem transmit_trace_ne {u : State} (h : u.trace = s.trace) : (transmit u).trace ≠ s.trace := by
  simp [transmit_trace, h, transmitEvents_ne_nil]

theorem cycleTransmit_trace_ne {u : State} (h : u.trace = s.trace) : (cycleTransmit u).trace ≠ s.trace := by
  rcases cycleTransmit_cases u with hc | hc <;> simp [hc, transmit_trace, h, transmitEvents_ne_nil]

/-- A command adds no event to the trace exactly if it is one of those without wire events (R46). -/
theorem exec_trace_eq_iff {i : Instr} (h : exec i s = .next t) : t.trace = s.trace ↔ EmitsNothing i s := by
  cases i <;> cases h
  case setPwr en => cases en <;> simp [EmitsNothing, powerEnableEvents, powerDisableEvents]
  case setBri level => exact iff_of_true rfl (.inl ⟨level, rfl⟩)
  case setPix r g b => exact iff_of_false (transmit_trace_ne (u := storePixel r g b s) rfl) (by simp [EmitsNothing])
  case setPixP packed => exact iff_of_false (transmit_trace_ne (u := storePacked packed s) rfl) (by simp [EmitsNothing])
  case clear => exact iff_of_false (transmit_trace_ne (u := clearPixel s) rfl) (by simp [EmitsNothing])
  case showPixel => exact iff_of_false (transmit_trace_ne rfl) (by simp [EmitsNothing])
  case cycle interval =>
    split
    case isTrue he => exact iff_of_false (cycleTransmit_trace_ne (u := advanceWheel interval s) rfl) (by simp [EmitsNothing, he])
    case isFalse he => exact iff_of_true rfl (.inr (.inr ⟨⟨interval, rfl⟩, by simpa using he⟩))
  case color r g b => exact iff_of_true rfl (.inr (.inl ⟨r, g, b, rfl⟩))

/-- In its accept cycle a command raises `busy` exactly if it has wire events (R46). -/
theorem startCommand_busy_iff (hb : s.busy = false) (i : Instr) (w : Word) :
    (startCommand i w s).busy = true ↔ ¬EmitsNothing i s := by
  cases i with
  | cycle interval => cases he : eligible s <;> simp [startCommand, EmitsNothing, he, hb]
  | _ => simp [startCommand, EmitsNothing, hb]

/-- `u` and `t` agree in the registers that are final in the accept cycle (R48 (a)). -/
def RegistersAgree (u t : State) : Prop :=
  u.pixelR = t.pixelR ∧ u.pixelG = t.pixelG ∧ u.pixelB = t.pixelB ∧ u.bright = t.bright ∧ u.phase = t.phase
    ∧ u.cycDeadline = t.cycDeadline ∧ u.cycArmed = t.cycArmed ∧ u.result = t.result ∧ u.ill = t.ill ∧ u.errw = t.errw

theorem registersAgree_transmit (s : State) : RegistersAgree s (transmit s) := by simp [RegistersAgree]

theorem registersAgree_cycleTransmit (s : State) : RegistersAgree s (cycleTransmit s) := by
  rcases cycleTransmit_cases s with h | h <;> simp [RegistersAgree, h]

/-- In its accept cycle a command leaves its registers as its whole meaning does (R48 (a)). -/
theorem startCommand_registersAgree {i : Instr} (h : exec i s = .next t) (w : Word) : RegistersAgree (startCommand i w s) t := by
  cases i <;> cases h
  case setPwr en => cases en <;> simp [startCommand, RegistersAgree]
  case setBri level => simp [startCommand, RegistersAgree]
  case setPix r g b => exact registersAgree_transmit (storePixel r g b s)
  case setPixP packed => exact registersAgree_transmit (storePacked packed s)
  case clear => exact registersAgree_transmit (clearPixel s)
  case showPixel => exact registersAgree_transmit s
  case cycle interval =>
    rw [startCommand]
    split
    · exact registersAgree_cycleTransmit (advanceWheel interval s)
    · simp [RegistersAgree]
  case color r g b => simp [startCommand, RegistersAgree]

/-- Every command answers a next state (R103). -/
theorem exec_next (i : Instr) (s : State) : ∃ t, exec i s = .next t := by
  cases i <;> exact ⟨_, rfl⟩

/-! ### The bridge -/

/-- A bridge that reads a word's bytes lowest first puts the same word together (R41). -/
theorem wordOfBytes_wordBytes (w : Word) : wordOfBytes (wordBytes w) = some w := by
  have join (start m n : ℕ) : w.extractLsb' (start + n) m ++ w.extractLsb' start n = w.extractLsb' start (m + n) :=
    BitVec.extractLsb'_append_extractLsb'_eq_extractLsb' rfl
  rw [wordBytes, wordOfBytes, join 16 8 8, join 8 (8 + 8) 8, join 0 (8 + 8 + 8) 8]
  exact congrArg some BitVec.extractLsb'_eq_self

theorem bridgeAccess_word {a : ℕ} (ha : a < 8) (x : PortAddr → PortAccess) (s : State) :
    bridgeAccess (4 * a) 4 x s = .next (portAccess (x (BitVec.ofNat 3 a)) s) := by
  have hdiv : 4 * a / 4 = a := Nat.mul_div_cancel_left a (by omega)
  rw [bridgeAccess, if_neg (by omega), if_pos ⟨by omega, rfl⟩, hdiv]

theorem bridgeAccess_narrow {offset count : ℕ} (ho : offset < 32) (h : ¬(offset % 4 = 0 ∧ count = 4)) (x : PortAddr → PortAccess)
    (s : State) : bridgeAccess offset count x s = .refused .narrowOrMisaligned := by
  rw [bridgeAccess, if_neg (by omega), if_neg h]

theorem bridgeAccess_beyond {offset : ℕ} (ho : 32 ≤ offset) (count : ℕ) (x : PortAddr → PortAccess) (s : State) :
    bridgeAccess offset count x s = .fault (.noSuchRegister offset) := if_pos ho

theorem bridgeWrite_word {a : ℕ} (ha : a < 8) (d : Word) (s : State) :
    bridgeWrite (4 * a) (wordBytes d) s = .next (portAccess (.write (BitVec.ofNat 3 a) d) s) := by
  rw [bridgeWrite, wordOfBytes_wordBytes]
  exact bridgeAccess_word ha _ s

/-! ### The end of WAITIDLE -/

/-- A read keeps the invariant (R43). -/
theorem Inv.after_portRead (h : Inv s) (hh : s.held = none) (a : PortAddr) : Inv (portRead a s) :=
  h.after_outside (outsideOnly_free hh _ true s.nowMs s.inputs)

/-- The poll loop reads BUSY as 0 one step after the ticks left of the running command (R49). -/
theorem Inv.waitIdle_ends (h : Inv s) (hh : s.held = none) (hin : s.inputs = .waitIdle :: rest) :
    ∃ n t, n ≤ s.seq.ticksLeft + 1 ∧ Host.Core.run core n s = .next t
      ∧ t.rdata.getLsbD 0 = false ∧ t.busy = false ∧ t.seq = idlePos ∧ t.inputs = rest := by
  induction hm : s.seq.ticksLeft using Nat.strong_induction_on generalizing s with
  | _ m ih =>
    cases hb : s.busy with
    | false =>
      refine ⟨1, _, by omega, run_succ_of_step (step_of_waitIdle_idle hb hh hin) 0, ?_, hb, h.busy.2 hb, rfl⟩
      exact (statusView_getLsbD _ 0).trans hb
    | true =>
      have hread := h.after_portRead hh 1#3
      have hlt : (tick (portRead 1#3 s)).seq.ticksLeft < s.seq.ticksLeft := hread.tick_ticksLeft_lt hb
      obtain ⟨n, t, hn, hrun, hend⟩ := ih _ (hm ▸ hlt) (hread.after_tick hb) (by simpa using hh) (by simpa using hin) rfl
      exact ⟨n + 1, t, by omega, (run_succ_of_step (step_of_waitIdle_busy hb hh hin) n).trans hrun, hend⟩

end Sys2Proof.Machine

open Sys2Proof Sys2Proof.Machine

/-- Settles O14: a transfer while a write is held lets the block run on, which is a tick while busy and the accept of the held word after. -/
theorem cmdWriteWhileBusyIsHeld : Obligations.CmdWriteWhileBusyIsHeld := by
  intro s w rest
  refine ⟨fun hb hh hin => ?_, fun hb hh hin => ?_, tick_held s, tick_inputs s, tick_nowMs s, fun hh n hin => ?_,
    fun hb hh x hx hin => ?_, fun _ n hin => step_of_input hin, fun hb hh => ⟨fun hin => ?_, fun hin => ?_, fun x hx hin => ?_⟩⟩
  · rw [step_of_access hh hin]
    simp [portAccess, portWrite, hb]
  · simp [step_of_input hin, present, hostFree, advance, hb, hh]
  · simp [step_of_input hin, present, hostFree, hh]
  · rw [step_of_transfer_held hh hx hin, advance_of_busy hb]
  · rw [step_of_no_input hin, advance_of_held hb hh]
  · rw [step_of_input hin, present, advance_of_held (s := { s with inputs := rest }) hb hh]
  · rw [step_of_transfer_held hh hx hin, advance_of_held hb hh]

/-- Settles O15: command by command, the accept cycle writes the registers of the whole command, and `busy` rises exactly if that command
adds to the trace. -/
theorem registersAreFinalInTheAcceptCycle : Obligations.RegistersAreFinalInTheAcceptCycle := by
  intro w i s hd hb
  obtain ⟨t, ht⟩ := exec_next i s
  obtain ⟨hr, hg, hbl, hbri, hph, hdl, harm, hres, hill, herr⟩ := startCommand_registersAgree ht w
  have htrace := exec_trace_eq_iff ht
  rw [accept_of_decode hd]
  exact ⟨t, ht, hr, hg, hbl, hbri, hph, hdl, harm, hres, hill, herr, (startCommand_busy_iff hb i w).trans (not_congr htrace).symm, htrace⟩

/-- Settles O16: the bytes of a word make the word again, and a bridge access is a transfer, a refusal or a fault by its offset and width. -/
theorem bridgeIsLittleEndianAndWholeWord : Obligations.BridgeIsLittleEndianAndWholeWord := by
  refine ⟨fun w => ⟨rfl, wordOfBytes_wordBytes w⟩, fun s rest a ha hh => ⟨fun hin => ?_, fun d hin => ?_⟩,
    fun s rest offset count ho hh hn hin => ?_, fun s rest offset bytes ho hh hn hin => ?_,
    fun s rest offset ho hh => ⟨fun count hin => ?_, fun bytes hin => ?_⟩⟩
  · rw [step_of_bridgeRead hh hin, bridgeAccess_word ha, step_with_access hh]
  · rw [step_of_bridgeWrite hh hin, bridgeWrite_word ha, step_with_access hh]
  · rw [step_of_bridgeRead hh hin, bridgeAccess_narrow ho hn]
  · rw [step_of_bridgeWrite hh hin, bridgeWrite, bridgeAccess_narrow ho hn]
  · rw [step_of_bridgeRead hh hin, bridgeAccess_beyond ho]
  · rw [step_of_bridgeWrite hh hin, bridgeWrite, bridgeAccess_beyond ho]

/-- Settles O52: no move of a step but a reset does more to the wire than append events, and the accept cycle and the outside do nothing to it. -/
theorem stepsOnlyAppendWireEvents : Obligations.StepsOnlyAppendWireEvents := by
  intro s t h hr
  rcases step_cases h with ⟨x, rest, hin, -⟩ | hm
  · exact absurd ⟨x, by rw [hin]; rfl⟩ hr
  · exact hm.appends

/-- Settles O58: every poll of a busy block leaves fewer ticks of the running command, of which there are at most 890. -/
theorem waitIdleEnds : Obligations.WaitIdleEnds := by
  intro s rest h hh hin
  obtain ⟨n, t, hn, hend⟩ := h.waitIdle_ends hh hin
  exact ⟨n, t, hn.trans (Nat.succ_le_succ s.seq.ticksLeft_le), hend⟩

/-- Settles O12: a read step changes the read data and `ready` alone, so the read after it sees the same register. -/
theorem readsHaveNoSideEffect : Obligations.ReadsHaveNoSideEffect := by
  refine ⟨fun _ => rfl, fun s a rest hh => ⟨fun hin => step_of_access hh hin, fun hin => ?_⟩⟩
  have second := step_of_access (s := portRead a { s with inputs := .access (.read a) :: rest }) hh rfl
  exact (run_succ_of_step (step_of_access hh hin) 1).trans (run_succ_of_step second 0)

/-- Settles O13: a write to any other address only sets `ready`, and each SHOW word is a Transmit, of which the first has linked. -/
theorem onlyCmdWritesHaveAnEffect : Obligations.OnlyCmdWritesHaveAnEffect := by
  intro s rest
  refine ⟨fun a d hh ha hin => ?_, fun hi hin => ?_⟩
  · rw [step_of_access hh hin, portAccess, portWrite_of_readOnly ha]
  · have again : Idle (transmit { s with inputs := .command 0x06000000#32 :: rest, ready := true }) := by simpa [Idle] using hi
    refine ⟨_, (run_succ_of_step (step_of_show hi hin) 1).trans (run_succ_of_step (step_of_show again (transmit_inputs _)) 0), ?_⟩
    simp [transmit_trace, transmitEvents, transmit_linked, frame]

end

section
/-!
PROOFS. Family 30_encoding.md: the words of a command are its encoding but for ignored bits (O1, O2, O3, O6), illegal words (O5), and the
assembler and disassembler (O7, O8).
-/

namespace Sys2Proof.Machine

/-! ### What a word decodes to -/

section Opcodes
variable {w : Word}

theorem decode_setPwr (h : opField w = 0x01#8) : decode w = .ok (.setPwr (enField w)) := by simp [decode, h]
theorem decode_setBri (h : opField w = 0x02#8) : decode w = .ok (.setBri (blueField w)) := by simp [decode, h]
theorem decode_setPix (h : opField w = 0x03#8) : decode w = .ok (.setPix (redField w) (greenField w) (blueField w)) := by
  simp [decode, h]
theorem decode_setPixP (h : opField w = 0x04#8) : decode w = .ok (.setPixP (opdField w)) := by simp [decode, h]
theorem decode_clear (h : opField w = 0x05#8) : decode w = .ok .clear := by simp [decode, h]
theorem decode_showPixel (h : opField w = 0x06#8) : decode w = .ok .showPixel := by simp [decode, h]
theorem decode_cycle (h : opField w = 0x07#8) : decode w = .ok (.cycle (opdField w)) := by simp [decode, h]
theorem decode_color (h : opField w = 0x08#8) : decode w = .ok (.color (redField w) (greenField w) (blueField w)) := by
  simp [decode, h]

/-- A word is a command, or it is refused as illegal with its opcode outside the table (R60, R63). -/
theorem decode_cases (w : Word) :
    (∃ i, decode w = .ok i)
      ∨ decode w = .error (.illegalCommand w) ∧ ((opField w).toNat = 0 ∨ 9 ≤ (opField w).toNat) := by
  unfold decode
  split_ifs with h1 h2 h3 h4 h5 h6 h7 h8
  case neg =>
    simp only [← BitVec.toNat_inj, BitVec.toNat_ofNat] at h1 h2 h3 h4 h5 h6 h7 h8
    exact .inr ⟨rfl, by omega⟩
  all_goals exact .inl ⟨_, rfl⟩

/-- The opcode of a command is in the table (R59). -/
theorem opcode_toNat_mem (i : Instr) : 1 ≤ (opcode i).toNat ∧ (opcode i).toNat ≤ 8 := by
  cases i <;> simp [opcode]

/-- A word with an opcode outside the table is refused by name (R60, R63). -/
theorem decode_illegal (h : (opField w).toNat = 0 ∨ 9 ≤ (opField w).toNat) : decode w = .error (.illegalCommand w) := by
  rcases decode_cases w with ⟨i, hi⟩ | ⟨hw, -⟩
  · have := opcode_toNat_mem i
    rw [opcode_of_decode hi] at h
    omega
  · exact hw

end Opcodes

/-! ### The operand field -/

/-- The three channel fields of layout RGB24 make up the operand field (R56). -/
theorem channels_append (w : Word) : redField w ++ greenField w ++ blueField w = opdField w := by
  have upper : redField w ++ greenField w = w.extractLsb' 8 16 := BitVec.extractLsb'_append_extractLsb'_eq_extractLsb' rfl
  rw [upper]
  exact BitVec.extractLsb'_append_extractLsb'_eq_extractLsb' rfl

/-- An operand field with the bits a command's layout ignores cleared (R56). -/
def usedBits (i : Instr) (x : Packed) : Packed := x &&& ~~~opdField (ignoredMask i)

/-- A command whose layout ignores no bit uses its whole operand field (R56). -/
theorem usedBits_of_mask_zero {i : Instr} (h : ignoredMask i = 0#32) (x : Packed) : usedBits i x = x := by
  have kept : ~~~opdField 0#32 = BitVec.allOnes 24 := by decide
  rw [usedBits, h, kept, BitVec.and_allOnes]

/-- A command whose layout ignores every bit uses none (R56). -/
theorem usedBits_of_mask_full {i : Instr} (h : ignoredMask i = 0x00FFFFFF#32) (x : Packed) : usedBits i x = 0#24 := by
  simp [usedBits, h, opdField]

/-- Layout EN1 uses bit 0 (R56). -/
theorem usedBits_setPwr (en : Bool) (x : Packed) : usedBits (.setPwr en) x = (BitVec.ofBool (x.getLsbD 0)).setWidth 24 := by
  have kept : ~~~opdField 0x00FFFFFE#32 = 1#24 := by decide
  rw [usedBits, ignoredMask, kept, BitVec.and_one_eq_setWidth_ofBool_getLsbD]

/-- Layout LVL8 uses bits 7 to 0 (R56). -/
theorem usedBits_setBri (level : Byte) (x : Packed) : usedBits (.setBri level) x = (packedBlue x).setWidth 24 := by
  have kept : ∀ k : Fin 24, (~~~opdField 0x00FFFF00#32).getLsbD k = decide (k.val < 8) := by decide
  ext k hk
  rw [usedBits, ignoredMask, BitVec.getElem_and, ← BitVec.getLsbD_eq_getElem (x := ~~~_), kept ⟨k, hk⟩]
  by_cases h : k < 8 <;> simp [packedBlue, h, BitVec.getLsbD_eq_getElem hk]

/-- A decoded command's operand is the used bits of the word's operand field (R56, R64). -/
theorem operand_of_decode {w : Word} {i : Instr} (h : decode w = .ok i) : operand i = usedBits i (opdField w) := by
  rcases decode_inv h with ⟨-, rfl⟩ | ⟨-, rfl⟩ | ⟨-, rfl⟩ | ⟨-, rfl⟩ | ⟨-, rfl⟩ | ⟨-, rfl⟩ | ⟨-, rfl⟩ | ⟨-, rfl⟩
  · rw [usedBits_setPwr, operand, enField_eq]
  · rw [usedBits_setBri, operand, blueField_eq]
  · rw [usedBits_of_mask_zero rfl, operand, channels_append]
  · rw [usedBits_of_mask_zero rfl, operand]
  · rw [usedBits_of_mask_full rfl, operand]
  · rw [usedBits_of_mask_full rfl, operand]
  · rw [usedBits_of_mask_zero rfl, operand]
  · rw [usedBits_of_mask_zero rfl, operand, channels_append]

/-- Widening loses nothing. -/
theorem setWidth_inj {m n : ℕ} (hmn : m ≤ n) {x y : BitVec m} (h : x.setWidth n = y.setWidth n) : x = y := by
  have := congrArg (·.setWidth m) h
  simpa [hmn] using this

/-- A word with a command's opcode whose used bits are the command's operand decodes to that command (R55 to R59). -/
theorem decode_of_operand {w : Word} {i : Instr} (hop : opField w = opcode i) (hopd : operand i = usedBits i (opdField w)) :
    decode w = .ok i := by
  cases i with
  | setPwr en =>
    rw [usedBits_setPwr, operand] at hopd
    have hen : en = (opdField w).getLsbD 0 := by simpa using congrArg (·.getLsbD 0) hopd
    rw [decode_setPwr hop, enField_eq, hen]
  | setBri level =>
    rw [usedBits_setBri, operand] at hopd
    rw [decode_setBri hop, blueField_eq, setWidth_inj (by decide) hopd]
  | setPix r g b =>
    rw [usedBits_of_mask_zero rfl, operand] at hopd
    simp [decode_setPix hop, redField_eq, greenField_eq, blueField_eq, ← hopd]
  | setPixP packed =>
    rw [usedBits_of_mask_zero rfl, operand] at hopd
    rw [decode_setPixP hop, hopd]
  | clear => exact decode_clear hop
  | showPixel => exact decode_showPixel hop
  | cycle interval =>
    rw [usedBits_of_mask_zero rfl, operand] at hopd
    rw [decode_cycle hop, hopd]
  | color r g b =>
    rw [usedBits_of_mask_zero rfl, operand] at hopd
    simp [decode_color hop, redField_eq, greenField_eq, blueField_eq, ← hopd]

/-- The shape of every command's encoding (R54, R55, R64). -/
theorem encodeShape (i : Instr) : Laws.EncodeShape.Statement i := by
  cases i with
  | setPwr en => exact Laws.EncodeShape.setPwr en
  | setBri level => exact Laws.EncodeShape.setBri level
  | setPix r g b => exact Laws.EncodeShape.setPix r g b
  | setPixP packed => exact Laws.EncodeShape.setPixP packed
  | clear => exact Laws.EncodeShape.clear
  | showPixel => exact Laws.EncodeShape.showPixel
  | cycle interval => exact Laws.EncodeShape.cycle interval
  | color r g b => exact Laws.EncodeShape.color r g b

/-- Clearing ignored bits leaves the opcode as it is (R55). -/
theorem opField_and_not_ignoredMask (i : Instr) (w : Word) : opField (w &&& ~~~ignoredMask i) = opField w := by
  obtain ⟨-, -, hmask⟩ := encodeShape i
  rw [opField_and_not, hmask, BitVec.not_zero, BitVec.and_allOnes]

/-- A word whose bits in a mask are 0 is unchanged when they are cleared. -/
theorem and_not_of_and_eq_zero {w m : Word} (h : w &&& m = 0#32) : w &&& ~~~m = w := by
  have all : w &&& (m ||| ~~~m) = w := by rw [BitVec.or_not_self, BitVec.and_allOnes]
  rwa [BitVec.and_or_distrib_left, h, BitVec.zero_or] at all

/-- Words that agree outside a mask are equal once its bits are cleared. -/
theorem and_not_congr {w w' m : Word} (h : ∀ k, m.getLsbD k = false → w'.getLsbD k = w.getLsbD k) :
    w' &&& ~~~m = w &&& ~~~m := by
  apply BitVec.eq_of_getLsbD_eq
  intro k hk
  cases hm : m.getLsbD k with
  | true => simp [hm]
  | false => simp [hm, h k hm]

/-- The words of a command are those that are its encoding but for ignored bits (R54 to R59). -/
theorem decode_eq_ok_iff {w : Word} {i : Instr} : decode w = .ok i ↔ encode i = w &&& ~~~ignoredMask i := by
  have used : opdField (w &&& ~~~ignoredMask i) = usedBits i (opdField w) := opdField_and_not w (ignoredMask i)
  have op := opField_and_not_ignoredMask i w
  constructor
  · intro h
    apply word_ext
    · rw [opField_encode, op, opcode_of_decode h]
    · rw [opdField_encode, used, operand_of_decode h]
  · intro h
    apply decode_of_operand
    · rw [← op, ← h, opField_encode]
    · rw [← used, ← h, opdField_encode]

/-! ### The assembler's words -/

/-- A command's word is its opcode in bits 31:24, or-ed with its operand as R64's formulas do. -/
theorem encode_eq_or (i : Instr) : encode i = (opcode i).setWidth 32 <<< 24 ||| (operand i).setWidth 32 := by
  rw [encode, BitVec.append_def, BitVec.shiftLeftZeroExtend_eq, BitVec.setWidth'_eq]

/-- Three channels shifted into their places, as R64's formulas write them, are the operand of layout RGB24. -/
theorem setWidth_channels (r g b : Byte) :
    (r ++ g ++ b : Packed).setWidth 32 = r.setWidth 32 <<< 16 ||| g.setWidth 32 <<< 8 ||| b.setWidth 32 := by
  apply BitVec.eq_of_getLsbD_eq
  intro k hk
  have outer : (r ++ g ++ b : Packed).getLsbD k = if k < 8 then b.getLsbD k else (r ++ g).getLsbD (k - 8) :=
    BitVec.getLsbD_append
  have inner : (r ++ g).getLsbD (k - 8) = if k - 8 < 8 then g.getLsbD (k - 8) else r.getLsbD (k - 8 - 8) :=
    BitVec.getLsbD_append
  have beyond (x : Byte) (j : ℕ) (hj : 8 ≤ j) : x.getLsbD j = false := BitVec.getLsbD_of_ge x j hj
  rw [BitVec.getLsbD_setWidth, outer, inner]
  by_cases blueBit : k < 8
  · simp [hk, blueBit, show k < 16 by omega]
  have noBlue := beyond b k (by omega)
  by_cases greenBit : k - 8 < 8
  · simp [hk, blueBit, greenBit, noBlue, show k < 16 by omega]
  · have noGreen := beyond g (k - 8) (by omega)
    simp [hk, blueBit, greenBit, noBlue, noGreen, show ¬k < 16 by omega, show k - 8 - 8 = k - 16 by omega]

/-- The assembler's word for a decoded command's numbers is its encoding (R54, R64). -/
theorem assemble_toAsm (i : Instr) : assemble i.toAsm = some (encode i) := by
  unfold assemble
  rw [if_pos (toAsm_wellFormed i), encode_eq_or]
  cases i with
  | setPwr en => cases en <;> decide
  | clear => decide
  | showPixel => decide
  | _ => simp [Instr.toAsm, opcode, operand, setWidth_channels, BitVec.or_assoc]

/-- What the disassembler writes is in the ranges of R64. -/
theorem disassemble_wellFormed (w : Word) : (disassemble w).wellFormed = true := by
  unfold disassemble
  split
  · exact toAsm_wellFormed _
  · exact decide_eq_true w.isLt

/-- A line that stands for a command is that command's numbers (R64, R66). -/
theorem eq_toAsm_of_toInstr {c : AsmCmd} {i : Instr} (h : c.toInstr = some i) : c = i.toAsm := by
  have hwf := wellFormed_of_toInstr h
  unfold AsmCmd.toInstr at h
  rw [if_pos hwf] at h
  cases c with
  | setPwr en =>
    have hlt : en < 2 := by simpa [AsmCmd.wellFormed] using hwf
    obtain rfl | rfl : en = 0 ∨ en = 1 := by omega
    · cases h; rfl
    · cases h; rfl
  | word imm => cases h
  | _ =>
    cases h
    simp_all [AsmCmd.wellFormed, Instr.toAsm, Nat.mod_eq_of_lt]

end Sys2Proof.Machine

open Sys2Proof Sys2Proof.Machine

/-- Settles O1: an encoding's ignored bits are 0, so clearing them leaves the encoding itself. -/
theorem decodeOfEncodeIsTheCommand : Obligations.DecodeOfEncodeIsTheCommand := by
  intro i
  obtain ⟨-, ignored, -⟩ := encodeShape i
  exact decode_eq_ok_iff.mpr (and_not_of_and_eq_zero ignored).symm

/-- Settles O2, one half of `decode_eq_ok_iff`. -/
theorem encodeOfDecodeClearsIgnoredBits : Obligations.EncodeOfDecodeClearsIgnoredBits :=
  fun _ _ h => decode_eq_ok_iff.mp h

/-- Settles O3, row by row of the table. -/
theorem decoderMatchesTheOpcodeMap : Obligations.DecoderMatchesTheOpcodeMap := by
  intro w
  exact ⟨decode_setPwr, decode_setBri, decode_setPix, decode_setPixP, decode_clear, decode_showPixel, decode_cycle, decode_color,
    fun h => decode_illegal (h.imp_left fun h0 => congrArg BitVec.toNat h0)⟩

/-- Settles O5: an illegal opcode is refused, which takes the exception at both levels, and any other decodes. -/
theorem illegalWordIsRecordedAndNothingElse : Obligations.IllegalWordIsRecordedAndNothingElse := by
  refine ⟨by decide +kernel, fun w => ⟨fun h s => ?_, fun h => ?_⟩⟩
  · have refused := decode_illegal h
    exact ⟨runWord_of_illegal refused s, accept_of_illegal refused s⟩
  · exact (decode_cases w).resolve_right fun ⟨_, hop⟩ => h hop

/-- Settles O6, each word by running the decoder on it. -/
theorem writtenWordsDecode : Obligations.WrittenWordsDecode := by
  unfold Obligations.WrittenWordsDecode
  decide

/-- Settles O7: a line that stands for a command is the command's numbers, whose word is its encoding. -/
theorem assemblerWritesTheEncoding : Obligations.AssemblerWritesTheEncoding := by
  refine ⟨fun c i h => ?_, fun c h => ?_⟩
  · rw [eq_toAsm_of_toInstr h, assemble_toAsm]
  · simp [assemble, h]

/-- Settles O8: a command's word with its ignored bits 0 is the encoding of the command, and `.word` keeps an illegal word. -/
theorem disassembleThenAssembleReproduces : Obligations.DisassembleThenAssembleReproduces := by
  intro w hignored
  cases h : decode w with
  | ok i =>
    have hw : encode i = w := (decode_eq_ok_iff.mp h).trans (and_not_of_and_eq_zero (hignored i h))
    simp [disassemble, h, assemble_toAsm, hw]
  | error e =>
    simp [disassemble, h, assemble, AsmCmd.wellFormed, w.isLt]

end

section
/-!
PROOFS. Family 30_encoding.md: the ignored bits of a word have no effect (O4).
-/

namespace Sys2Proof.Machine

/-- The state with `w` as the sequencer's copy of the command word (R28). -/
def withSeqWord (w : Word) (s : State) : State := { s with seq := { s.seq with cmd := w } }

/-! ### A tick copies the word on -/

variable {s : State}

theorem nextPowerPos_cmd (s : State) : (nextPowerPos s).cmd = s.seq.cmd := by
  unfold nextPowerPos
  split_ifs <;> rfl

theorem nextFramePos_cmd (p : SeqPos) : (nextFramePos p).cmd = p.cmd := by
  unfold nextFramePos
  split_ifs <;> rfl

/-- Before DONE a tick leaves the word as it is. -/
theorem tick_cmd (hidle : s.seq.step ≠ .idle) (hdone : s.seq.step ≠ .done) : (tick s).seq.cmd = s.seq.cmd := by
  unfold tick
  split
  case h_1 =>
    unfold tickPower
    split_ifs
    · rfl
    · exact nextPowerPos_cmd s
  case h_2 =>
    unfold tickInit
    split_ifs <;> rfl
  case h_3 => exact nextFramePos_cmd s.seq
  case h_4 hstep => exact absurd hstep hdone
  case h_5 hstep => exact absurd hstep hidle

/-- The end of a command forgets its word. -/
theorem tick_withSeqWord_end (w : Word) (h : s.seq.step = .idle ∨ s.seq.step = .done) : tick (withSeqWord w s) = tick s := by
  rcases h with h | h <;> simp [tick, withSeqWord, h, tickDone]

theorem nextFramePos_withSeqWord (w : Word) (p : SeqPos) :
    nextFramePos { p with cmd := w } = { nextFramePos p with cmd := w } := by
  unfold nextFramePos
  split_ifs <;> rfl

/-- Before DONE a tick reads of the word only whether it is SETPWR and powers off. -/
theorem tick_withSeqWord {w : Word} (hidle : s.seq.step ≠ .idle) (hdone : s.seq.step ≠ .done)
    (hset : seqIsSetPwr (withSeqWord w s) = seqIsSetPwr s) (hoff : seqPowerOff (withSeqWord w s) = seqPowerOff s) :
    tick (withSeqWord w s) = withSeqWord w (tick s) := by
  have sub : (withSeqWord w s).seq.sub = s.seq.sub := rfl
  cases hstep : s.seq.step with
  | idle => exact absurd hstep hidle
  | done => exact absurd hstep hdone
  | power =>
    have next : nextPowerPos (withSeqWord w s) = { nextPowerPos s with cmd := w } := by
      unfold nextPowerPos
      rw [hset, hoff, sub]
      split_ifs <;> rfl
    rw [tick_of_power hstep, tick_of_power (s := withSeqWord w s) hstep]
    by_cases h3 : s.seq.sub = 3
    · rw [tickPower_unlink h3, tickPower_unlink (s := withSeqWord w s) h3]
      rfl
    · rw [tickPower_event h3, tickPower_event (s := withSeqWord w s) h3, next, hoff]
      rfl
  | init =>
    rw [tick_of_init hstep, tick_of_init (s := withSeqWord w s) hstep]
    unfold tickInit
    rw [sub]
    split_ifs <;> rfl
  | frame =>
    rw [tick_of_frame hstep, tick_of_frame (s := withSeqWord w s) hstep, tickFrame, withSeqWord, nextFramePos_withSeqWord]
    rfl

/-! ### Words the sequencer does not tell apart -/

/-- Both words are SETPWR with the same `en`, or neither is SETPWR (R67, R79). -/
def SameToSequencer (w w' : Word) : Prop := opField w' = opField w ∧ (opField w = 0x01#8 → enField w' = enField w)

theorem sameToSequencer_of_decode {w w' : Word} {i : Instr} (h : decode w = .ok i) (h' : decode w' = .ok i) :
    SameToSequencer w w' := by
  have hop := opcode_of_decode h
  refine ⟨(opcode_of_decode h').trans hop.symm, fun hset => ?_⟩
  rw [decode_setPwr hset] at h
  cases h
  exact enField_of_decode h'

/-- `t` is `s`, or `s` with the word `w'` where `s` holds `w`. -/
def SameButWord (w w' : Word) (s t : State) : Prop := t = s ∨ (s.seq.cmd = w ∧ t = withSeqWord w' s)

/-- Such states differ in the sequencer's copy of the word alone. -/
theorem SameButWord.eq {w w' : Word} {s t : State} (h : SameButWord w w' s t) :
    t = { s with seq := { s.seq with cmd := t.seq.cmd } } := by
  obtain rfl | ⟨-, rfl⟩ := h <;> rfl

theorem SameButWord.tick {w w' : Word} (hw : SameToSequencer w w') {s t : State} (h : SameButWord w w' s t) :
    SameButWord w w' (tick s) (tick t) := by
  obtain rfl | ⟨rfl, rfl⟩ := h
  · exact .inl rfl
  obtain ⟨hop, hen⟩ := hw
  have hset : seqIsSetPwr (withSeqWord w' s) = seqIsSetPwr s := congrArg (· == 0x01#8) hop
  have hoff : seqPowerOff (withSeqWord w' s) = seqPowerOff s := by
    unfold seqPowerOff
    rw [hset]
    by_cases h1 : opField s.seq.cmd = 0x01#8
    · exact congrArg (seqIsSetPwr s && !·) (hen h1)
    · simp [seqIsSetPwr, beq_eq_false_iff_ne.mpr h1]
  by_cases hidle : s.seq.step = .idle
  · exact .inl (tick_withSeqWord_end w' (.inl hidle))
  by_cases hdone : s.seq.step = .done
  · exact .inl (tick_withSeqWord_end w' (.inr hdone))
  exact .inr ⟨tick_cmd hidle hdone, tick_withSeqWord hidle hdone hset hoff⟩

theorem SameButWord.ticks {w w' : Word} (hw : SameToSequencer w w') (n : ℕ) {s t : State} (h : SameButWord w w' s t) :
    SameButWord w w' (Machine.tick^[n] s) (Machine.tick^[n] t) := by
  induction n generalizing s t with
  | zero => exact h
  | succ n ih => exact ih (h.tick hw)

/-- A command that starts the sequencer leaves its word there, and reads it nowhere else. -/
theorem startCommand_sameButWord (i : Instr) (w w' : Word) (s : State) :
    SameButWord w w' (startCommand i w s) (startCommand i w' s) := by
  cases i with
  | setBri level => exact .inl rfl
  | color r g b => exact .inl rfl
  | cycle interval =>
    by_cases he : eligible s = true
    · rw [startCommand, startCommand, if_pos he, if_pos he]
      exact .inr ⟨rfl, rfl⟩
    · rw [startCommand, startCommand, if_neg he, if_neg he]
      exact .inl rfl
  | _ => exact .inr ⟨rfl, rfl⟩

end Sys2Proof.Machine

open Sys2Proof Sys2Proof.Machine

/-- Settles O4: the ignored bits cleared, both words are the encoding of the same command; and the ticks of that command keep its two words'
states equal but for the word. -/
theorem ignoredBitsHaveNoEffect : Obligations.IgnoredBitsHaveNoEffect := by
  intro w w' i h hbits
  have h' : decode w' = .ok i := decode_eq_ok_iff.mpr ((decode_eq_ok_iff.mp h).trans (and_not_congr hbits).symm)
  refine ⟨h', fun s => ⟨by rw [runWord_of_decode h, runWord_of_decode h'], fun n => ?_⟩⟩
  have start : SameButWord w w' (accept w s) (accept w' s) := by
    rw [accept_of_decode h, accept_of_decode h']
    exact startCommand_sameButWord i w w' s
  exact (start.ticks (sameToSequencer_of_decode h h') n).eq

end

section
/-!
PROOFS. Family 30_encoding.md, the text: what the disassembler prints is read back token by token (O59).
-/

namespace Sys2Proof.Machine

/-! ### The tokens of a printed line -/

/-- A mnemonic or a number: one run of plain characters. -/
def isToken (t : List Char) : Bool := !t.isEmpty && t.all isPlain

theorem isToken_decimal (n : ℕ) : isToken (decimal n) = true := by
  have hne : decimal n ≠ [] := Nat.toDigits_ne_nil
  simp only [isToken, decimal_plain, List.isEmpty_eq_false_iff.mpr hne, Bool.not_false, Bool.and_self]

theorem isToken_hex (n v : ℕ) : isToken ('0' :: 'x' :: hexDigits n v) = true := by
  obtain ⟨plain, -⟩ := hexDigits_plain n v
  simp only [isToken, List.all_cons, plain]
  rfl

/-- A line without `;` has no comment (R64). -/
theorem stripComment_of_no_semicolon {cs : List Char} (h : cs.all (· != ';') = true) : stripComment cs = cs :=
  List.takeWhile_eq_self_iff.mpr (List.all_eq_true.mp h)

section Tokens
variable {t : List Char} (h : isToken t = true)
include h

theorem no_semicolon_of_isToken : t.all (· != ';') = true := by
  simp only [isToken, Bool.and_eq_true, List.all_eq_true, isPlain] at h ⊢
  obtain ⟨-, plain⟩ := h
  exact fun c hc => (plain c hc).2

/-- Reading a token leaves it to be ended by what comes after it. -/
theorem tokens_token (rest : List Char) : tokens (t ++ rest) [] = tokens rest (t.map Char.toUpper).reverse := by
  simp only [isToken, Bool.and_eq_true] at h
  obtain ⟨-, plain⟩ := h
  rw [tokens_plain t rest [] plain, List.append_nil]

theorem endToken_token (toks : List (List Char)) : endToken (t.map Char.toUpper).reverse toks = t.map Char.toUpper :: toks := by
  have hne : t ≠ [] := by rintro rfl; cases h
  simp [endToken, hne]

theorem tokens_last : tokens t [] = [t.map Char.toUpper] := by
  have read := tokens_token h []
  rw [List.append_nil] at read
  exact read.trans (endToken_token h [])

theorem tokens_before_blank (rest : List Char) : tokens (t ++ ' ' :: rest) [] = t.map Char.toUpper :: tokens rest [] :=
  (tokens_token h _).trans (endToken_token h _)

theorem tokens_before_comma (rest : List Char) :
    tokens (t ++ ',' :: ' ' :: rest) [] = t.map Char.toUpper :: [','] :: tokens rest [] :=
  (tokens_token h _).trans (endToken_token h _)

end Tokens

/-- A printed line with one operand. -/
theorem tokens_unary {m a : List Char} (hm : isToken m = true) (ha : isToken a = true) :
    tokens (stripComment (m ++ ' ' :: a)) [] = [m.map Char.toUpper, a.map Char.toUpper] := by
  have strip : stripComment (m ++ ' ' :: a) = m ++ ' ' :: a :=
    stripComment_of_no_semicolon (by simp [no_semicolon_of_isToken hm, no_semicolon_of_isToken ha])
  rw [strip, tokens_before_blank hm, tokens_last ha]

/-- A printed line with three operands. -/
theorem tokens_rgb {m : List Char} (hm : isToken m = true) (r g b : ℕ) :
    tokens (stripComment (m ++ rgbText r g b)) [] = [m.map Char.toUpper, decimal r, [','], decimal g, [','], decimal b] := by
  have text : m ++ rgbText r g b = m ++ ' ' :: (decimal r ++ ',' :: ' ' :: (decimal g ++ ',' :: ' ' :: decimal b)) := by
    simp [rgbText]
  have number (n : ℕ) := no_semicolon_of_isToken (isToken_decimal n)
  have strip := stripComment_of_no_semicolon (cs := m ++ rgbText r g b)
    (by simp [text, no_semicolon_of_isToken hm, number])
  rw [strip, text, tokens_before_blank hm, tokens_before_comma (isToken_decimal r), tokens_before_comma (isToken_decimal g),
    tokens_last (isToken_decimal b), decimal_toUpper, decimal_toUpper, decimal_toUpper]

/-! ### Printed numbers -/

/-- A printed number is neither `off` nor `on`, and is read as it is (R64). -/
theorem parseEnable_decimal (n : ℕ) : parseEnable (decimal n) = some n := by
  have hne {cs : List Char} (hc : 'O' ∈ cs) : decimal n ≠ cs := by
    rintro rfl
    exact absurd (isDigit_decimal hc) (by decide)
  unfold parseEnable
  rw [if_neg (hne (by decide)), if_neg (hne (by decide)), parseNumber_decimal]

/-- Hexadecimal digits after the prefix are read as the number they print (R64). -/
theorem parseNumber_hex {n v : ℕ} (h : v < 16 ^ (n + 1)) : parseNumber ('0' :: 'X' :: hexDigits (n + 1) v) = some v := by
  have value := digitsValue_hexDigits (n + 1) v h
  cases hd : hexDigits (n + 1) v with
  | nil => simp [hexDigits] at hd
  | cons c cs => rwa [hd] at value

/-! ### The commands of tokens -/

/-- The tokens of a command with one operand make its CMD write: its mnemonic is no register read and no date. -/
theorem parseLine_unary {m a : List Char} {c : AsmCmd} (h : parseUnary m a = some c) :
    parseLine [m, a] = (assemble c).map (fun w => [.command w]) := by
  have write (hop : parseLine [m, a] = ((parseUnary m a).bind assemble).map (fun w => [.command w])) :
      parseLine [m, a] = (assemble c).map (fun w => [.command w]) := by
    rw [hop, h, Option.bind_some]
  unfold parseUnary at h
  split_ifs at h with h1 h2 h3 h4 h5
  · subst h1; exact write rfl
  · subst h2; exact write rfl
  · subst h3; exact write rfl
  · subst h4; exact write rfl
  · subst h5; exact write rfl

/-- The tokens of a command with three operands make its CMD write: its mnemonic is no date. -/
theorem parseLine_rgb {m r g b : List Char} {c : AsmCmd} (h : parseRgb m r g b = some c) :
    parseLine [m, r, [','], g, [','], b] = (assemble c).map (fun w => [.command w]) := by
  have write (hop : parseLine [m, r, [','], g, [','], b] = ((parseRgb m r g b).bind assemble).map (fun w => [.command w])) :
      parseLine [m, r, [','], g, [','], b] = (assemble c).map (fun w => [.command w]) := by
    rw [hop, h, Option.bind_some]
  unfold parseRgb at h
  split at h
  · split_ifs at h with h1 h2
    · subst h1; exact write rfl
    · subst h2; exact write rfl
  · cases h

/-! ### Printed lines -/

/-- A printed line with one operand is the CMD write of the command its tokens name. -/
theorem assembleLine_unary {m a : List Char} {c : AsmCmd} (hm : isToken m = true) (ha : isToken a = true)
    (h : parseUnary (m.map Char.toUpper) (a.map Char.toUpper) = some c) :
    assembleLine (m ++ ' ' :: a) = (assemble c).map (fun w => [.command w]) := by
  rw [assembleLine, tokens_unary hm ha, parseLine_unary h]

/-- The same with the operand in decimal. -/
theorem assembleLine_decimal {m : List Char} {n : ℕ} {c : AsmCmd} (hm : isToken m = true)
    (h : parseUnary (m.map Char.toUpper) (decimal n) = some c) :
    assembleLine (m ++ ' ' :: decimal n) = (assemble c).map (fun w => [.command w]) :=
  assembleLine_unary hm (isToken_decimal n) ((decimal_toUpper n).symm ▸ h)

/-- A printed line with three operands is the CMD write of the command its mnemonic names. -/
theorem assembleLine_rgb {m : List Char} {r g b : ℕ} {c : AsmCmd} (hm : isToken m = true)
    (h : parseRgb (m.map Char.toUpper) (decimal r) (decimal g) (decimal b) = some c) :
    assembleLine (m ++ rgbText r g b) = (assemble c).map (fun w => [.command w]) := by
  rw [assembleLine, tokens_rgb hm, parseLine_rgb h]

/-- What is printed for a line whose numbers are in range is read as that line (R66). -/
theorem assembleLine_render {c : AsmCmd} (h : c.wellFormed = true) :
    assembleLine (render c) = (assemble c).map (fun w => [.command w]) := by
  cases c with
  | clear => rfl
  | showPixel => rfl
  | setPwr en =>
    exact assembleLine_decimal (m := "SETPWR".toList) rfl (congrArg (Option.map AsmCmd.setPwr) (parseEnable_decimal en))
  | setBri level =>
    exact assembleLine_decimal (m := "SETBRI".toList) rfl (congrArg (Option.map AsmCmd.setBri) (parseNumber_decimal level))
  | setPixP packed =>
    exact assembleLine_decimal (m := "SETPIXP".toList) rfl (congrArg (Option.map AsmCmd.setPixP) (parseNumber_decimal packed))
  | cycle interval =>
    exact assembleLine_decimal (m := "CYCLE".toList) rfl (congrArg (Option.map AsmCmd.cycle) (parseNumber_decimal interval))
  | setPix r g b =>
    exact assembleLine_rgb (m := "SETPIX".toList) rfl (by simp only [parseRgb, parseNumber_decimal]; rfl)
  | color r g b =>
    exact assembleLine_rgb (m := "COLOR".toList) rfl (by simp only [parseRgb, parseNumber_decimal]; rfl)
  | word imm =>
    obtain ⟨-, upper⟩ := hexDigits_plain 8 imm
    have number : parseNumber (('0' :: 'x' :: hexDigits 8 imm).map Char.toUpper) = some imm := by
      rw [List.map_cons, List.map_cons, upper]
      exact parseNumber_hex (by simpa [AsmCmd.wellFormed] using h)
    exact assembleLine_unary (m := ".word".toList) rfl (isToken_hex 8 imm) (congrArg (Option.map AsmCmd.word) number)

end Sys2Proof.Machine

open Sys2Proof Sys2Proof.Machine

/-- Settles O59: the printed line is read as the disassembled line, and this assembles to the word (O8). -/
theorem printedTextAssemblesToTheWord : Obligations.PrintedTextAssemblesToTheWord := by
  intro w hignored
  rw [assembleLine_render (disassemble_wellFormed w), disassembleThenAssembleReproduces w hignored, Option.map_some]

end

section
/-!
PROOFS. Family 41_power_link.md: SETPWR whole, the link it tears down, and PowerDisable event by event (O19, O20, O21, O60).
-/

namespace Sys2Proof.Machine

/-! ### SETPWR whole -/

/-- PowerEnable, whole (R68). -/
theorem powerEnable_eq (s : State) :
    powerEnable s = { s with
      lines := { s.lines with pwrN := false, dataMode := .out, clkMode := .out }, trace := s.trace ++ powerEnableEvents } := by
  rw [powerEnable, emitAll, replay_powerEnableEvents]

/-- PowerDisable, whole (R69). -/
theorem powerDisable_eq (s : State) :
    powerDisable s = { s with
      linked := false
      lines := { s.lines with pwrN := true, dataMode := .inPd, clkMode := .inPd }, trace := s.trace ++ powerDisableEvents } := by
  rw [powerDisable, emitAll, replay_powerDisableEvents]

/-- An unlinked block's Transmit is lazy initialisation and then its frame (R78). -/
theorem transmitEvents_of_unlinked {s : State} (h : s.linked = false) :
    transmitEvents s = lazyInitEvents ++ bytesEvents (frame s) := by
  simp [transmitEvents, h]

/-! ### PowerDisable tick by tick -/

section Ticks
variable {w : Word} {s : State}

/-- SETPWR 0 with `n` of its three events out: the next one is due, or after the third the clearing of `linked` (R69, log 4). -/
def duringPowerOff (w : Word) (s : State) (n : ℕ) : State :=
  { emitAll (powerDisableEvents.take n) s with
    busy := true, seq := { idlePos with cmd := w, step := .power, sub := Fin.ofNat 7 n } }

/-- The sequencer's position after `n < 3` events, and the event it names, are the next of PowerDisable's list (R69). -/
theorem powerDisableEvents_take_succ : ∀ n < 3,
    Fin.ofNat 7 n ≤ 2 ∧ Fin.ofNat 7 n + 1 = Fin.ofNat 7 (n + 1)
      ∧ powerDisableEvents.take (n + 1) = powerDisableEvents.take n ++ [powerEvent true (Fin.ofNat 7 n)] := by
  decide

/-- A tick before the third event emits the next one (R69). -/
theorem tick_duringPowerOff (hop : opField w = 0x01#8) (hen : enField w = false) {n : ℕ} (hn : n < 3) :
    tick (duringPowerOff w s n) = duringPowerOff w s (n + 1) := by
  obtain ⟨hsub, hpos, htake⟩ := powerDisableEvents_take_succ n hn
  have hoff : seqPowerOff (duringPowerOff w s n) = true := by simp [seqPowerOff, seqIsSetPwr, duringPowerOff, hop, hen]
  rw [tick_of_power rfl, tickPower_off hoff hsub, duringPowerOff, duringPowerOff, htake, emitAll_append, ← hpos]
  rfl

/-- The first three ticks of SETPWR 0 emit its three events, one each (R48 (b), R69). -/
theorem ticks_powerOff (hop : opField w = 0x01#8) (hen : enField w = false) {n : ℕ} (hn : n ≤ 3) :
    tick^[n] (startPower w s) = duringPowerOff w s n := by
  induction n with
  | zero => simp [duringPowerOff, startPower, idlePos]
  | succ n ih => rw [Function.iterate_succ_apply', ih (by omega), tick_duringPowerOff hop hen (by omega)]

/-- After its last event a block's ticks leave the wire and `linked` as they are. -/
theorem ticks_ended (h : s.seq.step = .idle ∨ s.seq.step = .done) (n : ℕ) :
    (tick^[n] s).trace = s.trace ∧ (tick^[n] s).lines = s.lines ∧ (tick^[n] s).linked = s.linked := by
  induction n generalizing s with
  | zero => exact ⟨rfl, rfl, rfl⟩
  | succ n ih =>
    have hend : tick s = tickDone s := by rcases h with h | h <;> simp [tick, h]
    have hrest := ih (.inl (tick_of_idle h))
    rw [hend] at hrest
    rwa [Function.iterate_succ_apply, hend]

/-- From the fourth tick on SETPWR 0 has had its whole effect on the wire and on `linked` (R69, R70). -/
theorem ticks_powerOff_ended (hop : opField w = 0x01#8) (hen : enField w = false) {n : ℕ} (hn : 4 ≤ n) :
    (tick^[n] (startPower w s)).trace = (powerDisable s).trace
      ∧ (tick^[n] (startPower w s)).lines = (powerDisable s).lines
      ∧ (tick^[n] (startPower w s)).linked = false := by
  have hfour := ticks_setPwr w { s with busy := true } hop
  simp only [hen, Bool.false_eq_true, if_false] at hfour
  obtain ⟨k, rfl⟩ := Nat.exists_eq_add_of_le' hn
  rw [Function.iterate_add_apply]
  exact hfour ▸ ticks_ended (.inr rfl) k

/-- The lines after the first `n` of PowerDisable's events (R69, R90). -/
theorem replay_powerDisableEvents_take (n : ℕ) (l : Lines) :
    replay (powerDisableEvents.take n) l = { l with
      pwrN := if n = 0 then l.pwrN else true
      dataMode := if n ≤ 1 then l.dataMode else .inPd
      clkMode := if n ≤ 2 then l.clkMode else .inPd } := by
  match n with
  | 0 | 1 | 2 => rfl
  | n + 3 => simp [powerDisableEvents, applyEvent]

/-- A STATUS read between the events of PowerDisable: BUSY, LINKED as before, and the lines after `n` events (R29, R48 (b)). -/
theorem statusView_duringPowerOff (w : Word) (s : State) (n : ℕ) :
    (statusView (duringPowerOff w s n)).getLsbD 0 = true
      ∧ (statusView (duringPowerOff w s n)).getLsbD 1 = s.linked
      ∧ ((statusView (duringPowerOff w s n)).getLsbD 2 = true ↔ n = 0 ∧ s.lines.pwrN = false)
      ∧ ((statusView (duringPowerOff w s n)).getLsbD 5 = true ↔ n ≤ 1 ∧ s.lines.dataMode = .out)
      ∧ ((statusView (duringPowerOff w s n)).getLsbD 6 = true ↔ n ≤ 2 ∧ s.lines.clkMode = .out) := by
  simp only [statusView_getLsbD, duringPowerOff, emitAll_linked, emitAll_lines, replay_powerDisableEvents_take]
  refine ⟨rfl, rfl, ?_, ?_, ?_⟩
  · by_cases h : n = 0 <;> simp [h]
  · by_cases h : n ≤ 1 <;> simp [h]
  · by_cases h : n ≤ 2 <;> simp [h]

end Ticks

end Sys2Proof.Machine

open Sys2Proof Sys2Proof.Machine

/-- Settles O60: the first three ticks emit one event each and keep `linked`, and from the fourth on the effect is PowerDisable's. -/
theorem powerDisableUnlinksAfterItsEvents : Obligations.PowerDisableUnlinksAfterItsEvents := by
  intro w s n h
  have hop : opField w = 0x01#8 := opcode_of_decode h
  have hen : enField w = false := enField_of_decode h
  rw [accept_of_decode h, show startCommand (.setPwr false) w s = startPower w s from rfl]
  by_cases hn : n ≤ 3
  · rw [ticks_powerOff hop hen hn]
    exact ⟨rfl, rfl, fun _ => statusView_duringPowerOff w s n, fun h4 => by omega⟩
  · obtain ⟨htrace, hlines, hlinked⟩ := ticks_powerOff_ended (s := s) hop hen (n := n) (by omega)
    have hall : powerDisableEvents.take n = powerDisableEvents := List.take_of_length_le (by simp [powerDisableEvents]; omega)
    rw [hall]
    exact ⟨htrace, hlines, fun h3 => absurd h3 hn, fun _ => hlinked⟩

/-- Settles O19: the command is PowerEnable. -/
theorem setPwrOnRunsPowerEnable : Obligations.SetPwrOnRunsPowerEnable :=
  fun s => congrArg Host.Outcome.next (powerEnable_eq s)

/-- Settles O20: the command is PowerDisable, and a line in IN_PD reads 0. -/
theorem setPwrOffRunsPowerDisable : Obligations.SetPwrOffRunsPowerDisable :=
  fun s => ⟨powerDisable s, rfl, powerDisable_eq s, rfl, rfl⟩

/-- Settles O21: PowerDisable leaves the block unlinked, so the next Transmit is lazy; PowerEnable emits and does no more. -/
theorem powerOffMakesTheNextTransmitLazy : Obligations.PowerOffMakesTheNextTransmitLazy := by
  refine fun s => ⟨⟨powerDisable s, rfl, powerDisable_linked s, ?_, transmit_linked _⟩, powerEnable s, rfl, powerEnable_linked s⟩
  rw [transmit_trace, transmitEvents_of_unlinked (powerDisable_linked s), List.append_assoc]
  rfl

end

section
/-!
PROOFS. Family 42_brightness_pixel.md: the stored brightness (O22), and the pixel commands, which store and then transmit (O23, O24, O43).
-/

namespace Sys2Proof.Machine

/-! ### The stored brightness -/

/-- The stored brightness as a number (R72). -/
theorem storeBright_bright_toNat (level : Byte) (s : State) : (storeBright level s).bright.toNat = (level.toNat + 1) % 256 := by
  rw [storeBright_bright, BitVec.toNat_add]
  rfl

/-! ### The pixel commands -/

/-- SETPIXP of three joined channels stores these channels (R74). -/
@[simp] theorem storePacked_append (r g b : Byte) (s : State) : storePacked (r ++ g ++ b) s = storePixel r g b s := by
  simp [storePacked]

/-- The frame of a stored pixel: its channels, scaled by the brightness in force (R76, R80). -/
theorem frame_storePixel (r g b : Byte) (s : State) :
    frame (storePixel r g b s) =
      [0x00#8, 0x00#8, 0x00#8, 0x00#8, 0xFF#8, scale b s.bright, scale g s.bright, scale r s.bright, 0xFF#8] := rfl

/-- The three commands that set a colour store it and then transmit (R73, R74, R75). -/
theorem exec_of_setsColour {i : Instr} {r g b : Byte}
    (h : i = .setPix r g b ∨ i = .setPixP (r ++ g ++ b) ∨ (i = .clear ∧ r = 0#8 ∧ g = 0#8 ∧ b = 0#8)) (s : State) :
    exec i s = .next (transmit (storePixel r g b s)) := by
  rcases h with rfl | rfl | ⟨rfl, rfl, rfl, rfl⟩
  · rfl
  · exact congrArg (Host.Outcome.next <| transmit ·) (storePacked_append r g b s)
  · rfl

end Sys2Proof.Machine

open Sys2Proof Sys2Proof.Machine

/-- Settles O22: adding 1 to a byte wraps to 0 at 255 alone, and adding 255 more undoes it. -/
theorem setBriStoresLevelPlusOne : Obligations.SetBriStoresLevelPlusOne := by
  intro level s
  have hlevel := level.isLt
  have hstored := storeBright_bright_toNat level s
  refine ⟨storeBright level s, rfl, rfl, hstored, ?_, ?_⟩ <;> omega

/-- Settles O23: each of the four is a Transmit of the state with the colour stored, which `transmit_eq` gives whole. -/
theorem pixelCommandsStoreAndTransmit : Obligations.PixelCommandsStoreAndTransmit := by
  have sent (u : State) : Host.Outcome.next (transmit u) = (.next (afterTransmit u) : Host.Outcome State Fault Refusal) :=
    congrArg _ (transmit_eq u)
  exact fun s r g b packed => ⟨sent (storePixel r g b s), sent (storePacked packed s), sent (clearPixel s), sent s⟩

/-- Settles O24: the frame transmitted is that of the stored pixel, and Transmit leaves the registers alone. -/
theorem frameCarriesTheNewColour : Obligations.FrameCarriesTheNewColour := by
  intro s i r g b h
  refine ⟨transmit (storePixel r g b s), exec_of_setsColour h s, ?_, by simp⟩
  rw [transmit_trace, transmitEvents, frame_storePixel, List.append_assoc]
  rfl

/-- Settles O43: both store the same three channels and then transmit. -/
theorem setPixPAgreesWithSetPix : Obligations.SetPixPAgreesWithSetPix :=
  fun _ _ _ s => (exec_of_setsColour (.inr (.inl rfl)) s).trans (exec_of_setsColour (.inl rfl) s).symm

end

section
/-!
PROOFS. Family 43_show_frame.md: the multiplier (O27, O28, O29), the frame and the serialiser (O26, O30, O31), and lazy initialisation event by
event (O25).
-/

namespace Sys2Proof.Machine

/-! ### The multiplier -/

section Multiplier
variable {x s : Byte}

/-- The exact product of a channel and a stored brightness fits 16 bits (R85). -/
theorem product_le (x s : Byte) : x.toNat * s.toNat ≤ 65025 :=
  Nat.mul_le_mul (Nat.le_of_lt_succ x.isLt) (Nat.le_of_lt_succ s.isLt)

/-- The 16-bit product is exact (R85). -/
theorem product16_toNat (x s : Byte) : (x.setWidth 16 * s.setWidth 16).toNat = x.toNat * s.toNat := by
  have hle := product_le x s
  rw [BitVec.toNat_mul, BitVec.toNat_setWidth_of_le (by omega), BitVec.toNat_setWidth_of_le (by omega), Nat.mod_eq_of_lt (by omega)]

/-- The multiplier takes the bits 15:8 of the 16-bit product (R85). -/
theorem scale_eq_extractLsb' (h : s ≠ 0#8) : scale x s = (x.setWidth 16 * s.setWidth 16).extractLsb' 8 8 := by
  have hlt := (scale x s).isLt
  rw [scale_toNat h] at hlt
  apply BitVec.eq_of_toNat_eq
  rw [scale_toNat h, BitVec.extractLsb'_toNat, product16_toNat, Nat.shiftRight_eq_div_pow, Nat.mod_eq_of_lt hlt]

/-- Only the bypass can send 255 (M4). -/
theorem scale_toNat_le (h : s ≠ 0#8) : (scale x s).toNat ≤ 254 := by
  have hle := product_le x s
  rw [scale_toNat h]
  omega

/-- The multiplier by requested level: level 255 is stored as the bypass sentinel (R72, R85). -/
theorem scale_level_toNat (x level : Byte) :
    (scale x (level + 1#8)).toNat = if level.toNat = 255 then x.toNat else x.toNat * (level.toNat + 1) / 256 := by
  have hlt := level.isLt
  have hstored : (level + 1#8).toNat = (level.toNat + 1) % 256 := BitVec.toNat_add level 1#8
  split
  case isTrue h =>
    have hzero : level + 1#8 = 0#8 := BitVec.eq_of_toNat_eq (by simp [hstored, h])
    rw [hzero, scale_bypass]
  case isFalse h =>
    have hnext : (level + 1#8).toNat = level.toNat + 1 := by omega
    have hne : level + 1#8 ≠ 0#8 := fun h0 => by simp [h0] at hnext
    rw [scale_toNat hne, hnext]

/-- Stored brightness 1, requested level 0, sends 0 (M2). -/
theorem scale_bright_one (x : Byte) : scale x 1#8 = 0#8 := by
  have hx := x.isLt
  apply BitVec.eq_of_toNat_eq
  rw [scale_toNat (by decide), show (1#8).toNat = 1 from rfl, show (0#8).toNat = 0 from rfl]
  omega

/-- A channel of 0 sends 0, at the bypass too (M3). -/
theorem scale_channel_zero (s : Byte) : scale 0#8 s = 0#8 := by
  by_cases h : s = 0#8
  · rw [h, scale_bypass]
  · apply BitVec.eq_of_toNat_eq
    simp [scale_toNat h]

/-- But at the bypass a lit channel is dimmed (M4). -/
theorem scale_toNat_lt (h : s ≠ 0#8) (hx : 0 < x.toNat) : (scale x s).toNat < x.toNat := by
  rw [scale_toNat h, Nat.div_lt_iff_lt_mul (by decide)]
  exact Nat.mul_lt_mul_of_pos_left s.isLt hx

/-- A full-scale channel sends the stored brightness less 1 (M5). -/
theorem scale_full_toNat (h : s ≠ 0#8) : (scale 255#8 s).toNat = s.toNat - 1 := by
  have hs := s.isLt
  rw [scale_toNat h, show (255#8).toNat = 255 from rfl]
  omega

/-- A full-scale channel sends the requested level (M5). -/
theorem scale_full_level (level : Byte) : scale 255#8 (level + 1#8) = level := by
  have hlt := level.isLt
  apply BitVec.eq_of_toNat_eq
  rw [scale_level_toNat, show (255#8).toNat = 255 from rfl]
  split <;> omega

/-- `scale` does not decrease as the channel grows (M6). -/
theorem scale_mono_channel {x' : Byte} (h : s ≠ 0#8) (hx : x.toNat ≤ x'.toNat) : (scale x s).toNat ≤ (scale x' s).toNat := by
  rw [scale_toNat h, scale_toNat h]
  exact Nat.div_le_div_right (Nat.mul_le_mul_right _ hx)

/-- `scale` does not decrease as the stored brightness grows, the bypass apart (M6). -/
theorem scale_mono_bright {s' : Byte} (h : s ≠ 0#8) (hs : s.toNat ≤ s'.toNat) : (scale x s).toNat ≤ (scale x s').toNat := by
  have h' : s' ≠ 0#8 := by
    rintro rfl
    exact h (BitVec.eq_of_toNat_eq (Nat.le_zero.mp hs))
  rw [scale_toNat h, scale_toNat h']
  exact Nat.div_le_div_right (Nat.mul_le_mul_left _ hs)

/-- The bits of `s` taken so far give at most the whole product (R87). -/
theorem partialProduct_le (x s : Byte) (n : ℕ) : x.toNat * (s.toNat % 2 ^ n) ≤ 65025 :=
  (Nat.mul_le_mul_left _ (Nat.mod_le _ _)).trans (product_le x s)

/-- After the bits `0 .. n-1` the accumulator is the channel times the low `n` bits of the brightness, without wrapping (R87). -/
theorem shiftAddAcc_toNat (x s : Byte) (n : ℕ) : (shiftAddAcc x s n).toNat = x.toNat * (s.toNat % 2 ^ n) := by
  induction n with
  | zero => simp [shiftAddAcc, Nat.mod_one]
  | succ n ih =>
    have hbit : s.toNat % 2 ^ (n + 1) = s.toNat % 2 ^ n + 2 ^ n * (s.getLsbD n).toNat := by
      rw [Nat.mod_pow_succ, BitVec.getLsbD, Nat.toNat_testBit]
    have hle := partialProduct_le x s (n + 1)
    rw [hbit, Nat.mul_add] at hle ⊢
    cases hb : s.getLsbD n with
    | false => simp [shiftAddAcc, hb, ih]
    | true =>
      rw [hb, Bool.toNat_true, Nat.mul_one] at hle
      have hshift : (x.setWidth 16 <<< n).toNat = x.toNat * 2 ^ n := by
        rw [BitVec.toNat_shiftLeft, BitVec.toNat_setWidth_of_le (by decide), Nat.shiftLeft_eq, Nat.mod_eq_of_lt (by omega)]
      simp only [shiftAddAcc, hb, if_true, BitVec.toNat_add, ih, hshift, Bool.toNat_true, Nat.mul_one]
      omega

/-- The reference shift-and-add form is the multiplier (R87). -/
theorem scaleShiftAdd_eq_scale (x s : Byte) : scaleShiftAdd x s = scale x s := by
  by_cases h : s = 0#8
  · rw [scaleShiftAdd, if_pos h, h, scale_bypass]
  · have hacc : shiftAddAcc x s 8 = x.setWidth 16 * s.setWidth 16 := by
      apply BitVec.eq_of_toNat_eq
      rw [shiftAddAcc_toNat, Nat.mod_eq_of_lt s.isLt, product16_toNat]
    rw [scaleShiftAdd, if_neg h, hacc, scale_eq_extractLsb' h]

end Multiplier

/-! ### The serialiser -/

theorem bytesEvents_concat (vs : List Byte) (v : Byte) : bytesEvents (vs ++ [v]) = bytesEvents vs ++ byteEvents v := by
  simp [bytesEvents]

/-- A run of bytes ends with the gap of its last byte (R89). -/
theorem getLast?_bytesEvents_concat (vs : List Byte) (v : Byte) : (bytesEvents (vs ++ [v])).getLast? = some (.wait .gap) := by
  rw [bytesEvents_concat, byteEvents, ← List.append_assoc, List.getLast?_concat]

/-- A frame ends with the end frame's byte (R84). -/
theorem frame_eq_concat (s : State) : frame s = (frame s).dropLast ++ [0xFF#8] := rfl

/-- A frame is 441 events (R91). -/
theorem length_bytesEvents_frame (s : State) : (bytesEvents (frame s)).length = 441 := length_bytesEvents (frame s)

/-- A Transmit is 441 events, or 447 with lazy initialisation (R91). -/
theorem length_transmitEvents (s : State) : (transmitEvents s).length = if s.linked then 441 else 447 := by
  rw [transmitEvents, List.length_append, length_bytesEvents_frame]
  cases s.linked <;> rfl

/-- Linked and at rest, DATA is driven high and CLK low (R91). -/
theorem AtRest.lineLevels {s : State} (h : AtRest s) (hl : s.linked = true) :
    lineData s.lines = true ∧ lineClk s.lines = false := by
  obtain ⟨-, -, link, clkLow, ⟨-, high, sent⟩, -⟩ := h
  obtain ⟨-, hdata, hclk⟩ := link hl
  exact ⟨by rw [lineData, if_pos hdata, high.2 (sent hl)], by rw [lineClk, if_pos hclk, clkLow]⟩

/-! ### Lazy initialisation event by event -/

/-- LINKED is STATUS bit 1 (R29). -/
theorem portView_status_linked (s : State) : (portView 1#3 s).getLsbD 1 = s.linked := statusView_getLsbD s 1

/-- The events of INIT (R79): the lines cleared, the settling delay. -/
def initEvents : List WireEvent := [.set .data false, .set .clk false, .wait .settle]

theorem lazyInitEvents_eq : lazyInitEvents = powerEnableEvents ++ initEvents := rfl

section LazyInit
variable {s : State} {w : Word}

/-- A tick in INIT emits the event at its position and goes on to the next (R79). -/
theorem tick_init_event (hstep : s.seq.step = .init) (hsub : s.seq.sub ≤ 2) : tick s =
    { emit (initEvents.getD s.seq.sub.val (.wait .settle)) s with seq := { s.seq with sub := s.seq.sub + 1 } } := by
  have hcase : s.seq.sub = 0 ∨ s.seq.sub = 1 ∨ s.seq.sub = 2 := by omega
  rw [tick_of_init hstep]
  rcases hcase with h0 | h0 | h0 <;> simp [tickInit, h0, initEvents]

/-- The tick after INIT's events links and emits nothing (R79, log 5). -/
theorem tick_init_link (hstep : s.seq.step = .init) (hsub : s.seq.sub = 3) :
    tick s = { s with linked := true, seq := { s.seq with step := .frame, byte := 0, bit := 7, sub := 0 } } := by
  simp [tick_of_init hstep, tickInit, hsub]

/-- Where a Transmit that starts unlinked stands once `n` of the six events of lazy initialisation are out: POWER has the first three. -/
def lazyInitPos (w : Word) (frames : Fin 3) (n : ℕ) : SeqPos :=
  { idlePos with
    cmd := w, framesLeft := frames
    step := if n < 3 then .power else .init
    sub := Fin.ofNat 7 (if n < 3 then n else n - 3) }

/-- A Transmit that starts unlinked, once `n` of the six events of lazy initialisation are out (R79). -/
def duringLazyInit (w : Word) (frames : Fin 3) (s : State) (n : ℕ) : State :=
  { emitAll (lazyInitEvents.take n) s with busy := true, seq := lazyInitPos w frames n }

theorem startTransmit_eq_duringLazyInit (frames : Fin 3) (hl : s.linked = false) :
    startTransmit w frames s = duringLazyInit w frames s 0 := by
  simp [startTransmit, duringLazyInit, lazyInitPos, hl, idlePos]

/-- One more of the six events out, at the position after it. -/
theorem emit_duringLazyInit (frames : Fin 3) {n : ℕ} {e : WireEvent} (hnext : lazyInitEvents.take (n + 1) = lazyInitEvents.take n ++ [e])
    {p : SeqPos} (hpos : p = lazyInitPos w frames (n + 1)) :
    { emit e (duringLazyInit w frames s n) with seq := p } = duringLazyInit w frames s (n + 1) := by
  rw [duringLazyInit, duringLazyInit, hnext, emitAll_append, hpos]
  rfl

/-- A tick emits the next of the six events: POWER's first two, its last, or INIT's three. -/
theorem tick_duringLazyInit (hop : opField w ≠ 0x01#8) (frames : Fin 3) {n : ℕ} (hn : n < 6) :
    tick (duringLazyInit w frames s n) = duringLazyInit w frames s (n + 1) := by
  have hset (k : ℕ) : seqIsSetPwr (duringLazyInit w frames s k) = false := by
    simpa [seqIsSetPwr, duringLazyInit, lazyInitPos] using hop
  have hoff (k : ℕ) : seqPowerOff (duringLazyInit w frames s k) = false := by simp [seqPowerOff, hset]
  match n, hn with
  | 0, _ | 1, _ =>
    rw [tick_of_power rfl, tickPower_on (hoff _) (show Fin.ofNat 7 _ < 2 by decide)]
    exact emit_duringLazyInit frames rfl rfl
  | 2, _ =>
    rw [tick_of_power rfl, tickPower_last (hoff _) rfl, hset]
    exact emit_duringLazyInit frames rfl rfl
  | 3, _ | 4, _ | 5, _ =>
    rw [tick_init_event rfl (show Fin.ofNat 7 _ ≤ 2 by decide)]
    exact emit_duringLazyInit frames rfl rfl

/-- The first six ticks emit one event each (R79). -/
theorem ticks_duringLazyInit (hop : opField w ≠ 0x01#8) (frames : Fin 3) (hl : s.linked = false) {n : ℕ} (hn : n ≤ 6) :
    tick^[n] (startTransmit w frames s) = duringLazyInit w frames s n := by
  induction n with
  | zero => exact startTransmit_eq_duringLazyInit frames hl
  | succ n ih => rw [Function.iterate_succ_apply', ih (by omega), tick_duringLazyInit hop frames (by omega)]

/-- In the lazy initialisation of a state that meets the invariant `linked` is 0 (R79). -/
theorem Inv.unlinked_of_lazyInit (h : Inv s) (hpos : s.seq.step = .init ∨ (s.seq.step = .power ∧ opField s.seq.cmd ≠ 0x01#8)) :
    s.linked = false := by
  rcases hpos with hstep | ⟨hstep, hop⟩
  · obtain ⟨-, hl, -⟩ := h.init_pos hstep
    exact hl
  · have hp := h.pos
    simp only [SeqInv, hstep] at hp
    obtain ⟨-, -, -, hlazy⟩ := hp
    obtain ⟨hl, -⟩ := hlazy (by simpa [seqIsSetPwr] using hop)
    exact hl

end LazyInit

end Sys2Proof.Machine

open Sys2Proof Sys2Proof.Machine

/-- Settles O27: the product of two bytes fits 16 bits, so its high byte is the product divided by 256. -/
theorem multiplierTakesTheHighProductByte : Obligations.MultiplierTakesTheHighProductByte := by
  intro x s
  refine ⟨fun h => by rw [h, scale_bypass], fun h => ?_, scale_level_toNat x⟩
  exact ⟨scale_toNat h, product_le x s, scale_toNat h ▸ scale_toNat_le h, scale_eq_extractLsb' h⟩

/-- Settles O28, law by law. -/
theorem multiplierLaws : Obligations.MultiplierLaws := fun x s =>
  ⟨scale_bypass x, scale_bright_one x, scale_channel_zero s, scale_toNat_lt, scale_toNat_le, scale_full_toNat, scale_full_level,
    fun _ => scale_mono_channel, fun _ => scale_mono_bright, scale_toNat⟩

/-- Settles O29: the accumulator is the channel times the low bits of the brightness, at most the whole product. -/
theorem shiftAddMultiplierAgrees : Obligations.ShiftAddMultiplierAgrees :=
  fun x s => ⟨scaleShiftAdd_eq_scale x s, fun n _ => (shiftAddAcc_toNat x s n).trans_le (partialProduct_le x s n)⟩

/-- Settles O30: the gap ends every byte, so a frame holds one for each of its nine bytes and ends with one. -/
theorem serialiserSendsMsbFirstWithGaps : Obligations.SerialiserSendsMsbFirstWithGaps := by
  refine ⟨fun _ => rfl, fun v s => ?_, fun l b => ⟨rfl, rfl, fun _ => rfl, ?_⟩, fun s => ⟨?_, ?_⟩, tGap.pos⟩
  · rw [sendBytes, show bytesEvents [v] = byteEvents v by simp [bytesEvents]]
    exact ⟨rfl, rfl⟩
  · rintro rfl
    rfl
  · exact bytesSent_bytesEvents (frame s)
  · rw [frame_eq_concat]
    exact getLast?_bytesEvents_concat _ _

/-- Settles O31: the counts add up byte by byte, and a Transmit and the invariant fix the latches. -/
theorem eventCountsAndIdleLevels : Obligations.EventCountsAndIdleLevels := by
  refine ⟨fun _ => rfl, fun _ => rfl, rfl, fun s => ⟨length_bytesEvents_frame s, transmitEvents s, transmit_trace s,
    length_transmitEvents s, ?_⟩, fun s h hb hl => (h.atRest hb).lineLevels hl⟩
  rw [transmit_lines]
  exact ⟨rfl, rfl⟩

/-- Settles O25: six ticks emit the six events, the seventh links, and until then `linked` is 0. -/
theorem lazyInitPowersClearsSettlesLinks : Obligations.LazyInitPowersClearsSettlesLinks := by
  refine ⟨fun _ => rfl, fun w frames s hop hl => ?_, fun s hstep => ⟨fun hsub => ?_, tick_init_link hstep⟩, fun s h hpos => ?_⟩
  · have seventh : tick^[7] (startTransmit w frames s) = tick (duringLazyInit w frames s 6) := by
      rw [Function.iterate_succ_apply', ticks_duringLazyInit hop frames hl le_rfl]
    rw [seventh, tick_init_link rfl rfl]
    refine ⟨fun n hn => ?_, rfl, rfl⟩
    rw [ticks_duringLazyInit hop frames hl hn, portView_status_linked]
    exact ⟨rfl, hl⟩
  · rw [tick_init_event hstep hsub]
    exact ⟨rfl, rfl⟩
  · rw [portView_status_linked, h.unlinked_of_lazyInit hpos]

/-- Settles O26: each clause computes from the frame's nine bytes. -/
theorem frameIsNineBytesInWireOrder : Obligations.FrameIsNineBytesInWireOrder := fun _ => ⟨rfl, rfl, rfl, rfl⟩

end

section
/-!
PROOFS. Family 44_cycle_color.md: the rate limiter (O34, O36), the hue wheel (O37, O38), and the two forms of CYCLE, eligible (O35, O39)
and not (O40).
-/

namespace Sys2Proof.Machine

/-! ### The rate limiter -/

/-- The first call after reset is eligible (R95). -/
theorem eligible_of_unarmed {s : State} (h : s.cycArmed = false) : eligible s = true := by simp [eligible, h]

/-- Once armed, the limiter compares modulo 2^32 (R95). -/
theorem eligible_iff_of_armed {s : State} (h : s.cycArmed = true) :
    eligible s = true ↔ (s.nowMs - s.cycDeadline).toNat < 2 ^ 31 := by simp [eligible, h]

/-- A difference modulo 2^32 below 2^31 says "reached or passed", exactly so for times less than 2^31 apart (R95, R126). -/
theorem sub_toNat_lt_iff_le {time deadline : ℕ} (h : time < deadline + 2 ^ 31) (h' : deadline < time + 2 ^ 31) :
    (BitVec.ofNat 32 time - BitVec.ofNat 32 deadline).toNat < 2 ^ 31 ↔ deadline ≤ time := by
  rw [BitVec.toNat_sub, BitVec.toNat_ofNat, BitVec.toNat_ofNat]
  omega

/-! ### The hue wheel -/

/-- `pos` of R97: it falls as the phase rises. -/
def wheelPos (p : Byte) : ℕ := 255 - p.toNat

theorem wheelPos_add (p : Byte) : wheelPos p + p.toNat = 255 := Nat.sub_add_cancel (Nat.le_of_lt_succ p.isLt)

theorem wheelPos_lt {p q : Byte} (h : p.toNat < q.toNat) : wheelPos q < wheelPos p :=
  Nat.sub_lt_sub_left (h.trans_le (Nat.le_of_lt_succ q.isLt)) h

theorem wheelPos_succ {p : Byte} (h : p.toNat < 255) : wheelPos p = wheelPos (p + 1#8) + 1 := by
  have hnext : (p + 1#8).toNat = p.toNat + 1 := (BitVec.toNat_add p 1#8).trans (Nat.mod_eq_of_lt (Nat.succ_lt_succ h))
  rw [wheelPos, wheelPos, hnext]
  exact (Nat.sub_add_cancel (Nat.sub_pos_of_lt h)).symm

/-- Place `i` of a segment of the wheel: one channel has fallen from 255 by 3 a place, another has risen from 0, the third rests at 0. The
three segments of R97 differ only in the channels' parts, and each ends in the full colour in which the one above it begins. -/
def OnSegment (fall rise rest : Byte) (i : ℕ) : Prop :=
  i ≤ 85 ∧ fall.toNat = 255 - i * 3 ∧ rise.toNat = i * 3 ∧ rest.toNat = 0

section Segment
variable {fall rise rest fall' rise' rest' : Byte} {i j : ℕ}

/-- No intermediate value of R97 is cut off. -/
theorem onSegment_ofNat (h : i ≤ 85) : OnSegment (BitVec.ofNat 8 (255 - i * 3)) (BitVec.ofNat 8 (i * 3)) 0#8 i :=
  ⟨h, Nat.mod_eq_of_lt (Nat.lt_succ_of_le (Nat.sub_le _ _)), Nat.mod_eq_of_lt (Nat.lt_succ_of_le (Nat.mul_le_mul_right 3 h)), rfl⟩

/-- Place 0 of a segment is place 85 of the one below it. -/
theorem OnSegment.last (h : OnSegment rise rest fall 0) : OnSegment fall rise rest 85 := by
  obtain ⟨-, hrise, hrest, hfall⟩ := h
  exact ⟨le_rfl, hfall, hrise, hrest⟩

theorem OnSegment.sum (h : OnSegment fall rise rest i) : fall.toNat + rise.toNat + rest.toNat = 255 := by
  obtain ⟨hi, hfall, hrise, hrest⟩ := h
  rw [hfall, hrise, hrest]
  exact Nat.sub_add_cancel (Nat.mul_le_mul_right 3 hi)

/-- From a place to the next no channel moves by more than 3. -/
theorem OnSegment.near (h : OnSegment fall rise rest (i + 1)) (h' : OnSegment fall' rise' rest' i) :
    (fall'.toNat ≤ fall.toNat + 3 ∧ fall.toNat ≤ fall'.toNat + 3) ∧ (rise'.toNat ≤ rise.toNat + 3 ∧ rise.toNat ≤ rise'.toNat + 3)
      ∧ rest'.toNat ≤ rest.toNat + 3 ∧ rest.toNat ≤ rest'.toNat + 3 := by
  obtain ⟨-, hfall, hrise, hrest⟩ := h
  obtain ⟨-, hfall', hrise', hrest'⟩ := h'
  have falls : fall.toNat = fall'.toNat - 3 := by rw [hfall, hfall', Nat.succ_mul, Nat.sub_add_eq]
  have rises : rise.toNat = rise'.toNat + 3 := by rw [hrise, hrise', Nat.succ_mul]
  rw [falls, rises, hrest, hrest']
  exact ⟨⟨le_tsub_add, (Nat.sub_le _ 3).trans (Nat.le_add_right _ 3)⟩, ⟨Nat.le_add_right _ (3 + 3), le_rfl⟩,
    Nat.zero_le 3, Nat.zero_le 3⟩

/-- Along a segment one channel falls and another rises, strictly. -/
theorem OnSegment.strict (h : OnSegment fall rise rest i) (h' : OnSegment fall' rise' rest' j) (hij : i < j) :
    fall'.toNat < fall.toNat ∧ rise.toNat < rise'.toNat := by
  obtain ⟨-, hfall, hrise, -⟩ := h
  obtain ⟨hj, hfall', hrise', -⟩ := h'
  have hlt : i * 3 < j * 3 := Nat.mul_lt_mul_of_pos_right hij three_pos
  rw [hfall, hfall', hrise, hrise']
  exact ⟨Nat.sub_lt_sub_left (hlt.trans_le (Nat.mul_le_mul_right 3 hj)) hlt, hlt⟩

/-- One colour has one place on a segment. -/
theorem OnSegment.not_lt (h : OnSegment fall rise rest i) (h' : OnSegment fall rise rest j) : ¬i < j :=
  fun hij => (h.strict h' hij).2.false

/-- A colour on two segments is the full colour in which one ends and the other begins. -/
theorem OnSegment.ends (h : OnSegment fall rise rest i) (h' : OnSegment rise rest fall j) : i = 85 ∧ j = 0 := by
  obtain ⟨-, -, hrise, hrest⟩ := h
  obtain ⟨-, hrise', hrest', -⟩ := h'
  have hj : j = 0 := (Nat.mul_eq_zero.mp (hrest'.symm.trans hrest)).resolve_right three_ne_zero
  subst hj
  exact ⟨Nat.eq_of_mul_eq_mul_right three_pos (hrise.symm.trans hrise'), rfl⟩

end Segment

section Wheel
variable {p : Byte}

theorem wheel_third (h : 170 ≤ wheelPos p) : OnSegment (wheel p).g (wheel p).r (wheel p).b (wheelPos p - 170) := by
  have hwheel : wheel p = ⟨BitVec.ofNat 8 ((wheelPos p - 170) * 3), BitVec.ofNat 8 (255 - (wheelPos p - 170) * 3), 0#8⟩ :=
    (if_neg (Nat.not_lt.mpr (Nat.le_trans (by decide) h))).trans (if_neg h.not_gt)
  rw [hwheel]
  exact onSegment_ofNat (Nat.sub_le_sub_right (Nat.sub_le 255 p.toNat) 170)

theorem wheel_second (h : 85 ≤ wheelPos p) (h' : wheelPos p ≤ 170) :
    OnSegment (wheel p).b (wheel p).g (wheel p).r (wheelPos p - 85) := by
  rcases h'.eq_or_lt with h170 | hlt
  · have third := wheel_third h170.ge
    rw [h170] at third ⊢
    exact third.last
  · have hwheel : wheel p = ⟨0#8, BitVec.ofNat 8 ((wheelPos p - 85) * 3), BitVec.ofNat 8 (255 - (wheelPos p - 85) * 3)⟩ :=
      (if_neg h.not_gt).trans (if_pos hlt)
    rw [hwheel]
    exact onSegment_ofNat (Nat.sub_le_sub_right h' 85)

theorem wheel_first (h : wheelPos p ≤ 85) : OnSegment (wheel p).r (wheel p).b (wheel p).g (wheelPos p) := by
  rcases h.eq_or_lt with h85 | hlt
  · have second := wheel_second h85.ge (h.trans (by decide))
    rw [h85] at second ⊢
    exact second.last
  · have hwheel : wheel p = ⟨BitVec.ofNat 8 (255 - wheelPos p * 3), 0#8, BitVec.ofNat 8 (wheelPos p * 3)⟩ := if_pos hlt
    rw [hwheel]
    exact onSegment_ofNat h

/-- Every phase lies on one of the three segments, both ends counted. -/
theorem wheel_cases (p : Byte) :
    (wheelPos p ≤ 85 ∧ OnSegment (wheel p).r (wheel p).b (wheel p).g (wheelPos p))
      ∨ (85 ≤ wheelPos p ∧ wheelPos p ≤ 170 ∧ OnSegment (wheel p).b (wheel p).g (wheel p).r (wheelPos p - 85))
      ∨ (170 ≤ wheelPos p ∧ OnSegment (wheel p).g (wheel p).r (wheel p).b (wheelPos p - 170)) := by
  rcases Nat.le_total (wheelPos p) 85 with h | h
  · exact .inl ⟨h, wheel_first h⟩
  rcases Nat.le_total (wheelPos p) 170 with h' | h'
  · exact .inr (.inl ⟨h, h', wheel_second h h'⟩)
  · exact .inr (.inr ⟨h', wheel_third h'⟩)

/-- (W1) of R98. -/
theorem wheel_sum (p : Byte) : (wheel p).r.toNat + (wheel p).g.toNat + (wheel p).b.toNat = 255 := by
  rcases wheel_cases p with ⟨-, h⟩ | ⟨-, -, h⟩ | ⟨-, h⟩
  · rw [← h.sum, Nat.add_right_comm]
  · rw [← h.sum, Nat.add_comm (wheel p).r.toNat, Nat.add_right_comm, Nat.add_comm (wheel p).g.toNat]
  · rw [← h.sum, Nat.add_comm (wheel p).r.toNat]

/-- (W3) of R98: a phase and the next lie on one segment, but for the wrap from 255 to 0, where the colour stays. -/
theorem wheel_succ_near (p : Byte) :
    (wheel (p + 1#8)).r.toNat ≤ (wheel p).r.toNat + 3 ∧ (wheel p).r.toNat ≤ (wheel (p + 1#8)).r.toNat + 3
      ∧ (wheel (p + 1#8)).g.toNat ≤ (wheel p).g.toNat + 3 ∧ (wheel p).g.toNat ≤ (wheel (p + 1#8)).g.toNat + 3
      ∧ (wheel (p + 1#8)).b.toNat ≤ (wheel p).b.toNat + 3 ∧ (wheel p).b.toNat ≤ (wheel (p + 1#8)).b.toNat + 3 := by
  rcases Nat.eq_or_lt_of_le (Nat.le_of_lt_succ p.isLt) with h255 | hlt
  · obtain rfl : p = 255#8 := BitVec.eq_of_toNat_eq h255
    decide
  have next := wheelPos_succ hlt
  rcases Nat.lt_or_ge (wheelPos (p + 1#8)) 85 with h | h
  · obtain ⟨hr, hb, hg⟩ := (next ▸ wheel_first (next.trans_le h)).near (wheel_first h.le)
    exact ⟨hr.1, hr.2, hg.1, hg.2, hb⟩
  rcases Nat.lt_or_ge (wheelPos (p + 1#8)) 170 with h' | h'
  · have here := wheel_second (h.trans ((Nat.le_succ _).trans next.ge)) (next.trans_le h')
    rw [next, Nat.succ_sub h] at here
    obtain ⟨hb, hg, hr⟩ := here.near (wheel_second h h'.le)
    exact ⟨hr.1, hr.2, hg.1, hg.2, hb⟩
  · have here := wheel_third (h'.trans ((Nat.le_succ _).trans next.ge))
    rw [next, Nat.succ_sub h'] at here
    obtain ⟨hg, hr, hb⟩ := here.near (wheel_third h')
    exact ⟨hr.1, hr.2, hg.1, hg.2, hb⟩

/-- Two phases with one colour are 0 and 255 (R98). -/
theorem phases_of_wheel_eq {q : Byte} (hpq : p.toNat < q.toNat) (h : wheel p = wheel q) : p = 0#8 ∧ q = 255#8 := by
  have hlt := wheelPos_lt hpq
  have hcases := wheel_cases p
  rw [h] at hcases
  rcases hcases with ⟨hp, atP⟩ | ⟨hp, hp', atP⟩ | ⟨hp, atP⟩
  · exact absurd hlt ((wheel_first (hlt.le.trans hp)).not_lt atP)
  · rcases Nat.le_total (wheelPos q) 85 with hq | hq
    · obtain ⟨hplaceQ, hplaceP⟩ := (wheel_first hq).ends atP
      exact absurd hlt (hplaceQ ▸ (Nat.le_of_sub_eq_zero hplaceP).not_gt)
    · exact absurd (Nat.sub_lt_sub_right hq hlt) ((wheel_second hq (hlt.le.trans hp')).not_lt atP)
  rcases wheel_cases q with ⟨hq, atQ⟩ | ⟨hq, hq', atQ⟩ | ⟨hq, atQ⟩
  · obtain ⟨hplaceP, hplaceQ⟩ := atP.ends atQ
    have hposP := (Nat.sub_eq_iff_eq_add hp).mp hplaceP
    have hsumP := wheelPos_add p
    have hsumQ := wheelPos_add q
    rw [hposP] at hsumP
    rw [hplaceQ, Nat.zero_add] at hsumQ
    exact ⟨BitVec.eq_of_toNat_eq (Nat.add_left_cancel hsumP), BitVec.eq_of_toNat_eq hsumQ⟩
  · obtain ⟨hplaceQ, hplaceP⟩ := atQ.ends atP
    exact absurd hlt ((Nat.sub_eq_iff_eq_add hq).mp hplaceQ ▸ (Nat.le_of_sub_eq_zero hplaceP).not_gt)
  · exact absurd (Nat.sub_lt_sub_right hq hlt) ((wheel_third hq).not_lt atP)

end Wheel

/-! ### CYCLE -/

section Cycle
variable {s : State}

/-- An eligible CYCLE steps the wheel and transmits (R94). -/
theorem exec_cycle_of_eligible (h : eligible s = true) (interval : Packed) :
    exec (.cycle interval) s = .next (cycleTransmit (advanceWheel interval s)) :=
  congrArg Host.Outcome.next (if_pos h)

/-- A CYCLE that is not eligible does nothing (R100). -/
theorem exec_cycle_of_ineligible (h : eligible s = false) (interval : Packed) : exec (.cycle interval) s = .next s :=
  congrArg Host.Outcome.next (if_neg (by simp [h]))

theorem cycleTransmit_of_double (h : s.cfg.cycleDoubleShow = true) : cycleTransmit s = transmit (transmit s) := if_pos h

theorem cycleTransmit_of_single (h : s.cfg.cycleDoubleShow = false) : cycleTransmit s = transmit s := if_neg (by simp [h])

/-! The transmissions of a CYCLE leave the limiter and the phase as they are. -/

@[simp] theorem cycleTransmit_cycDeadline (s : State) : (cycleTransmit s).cycDeadline = s.cycDeadline := by
  rcases cycleTransmit_cases s with h | h <;> simp [h]

@[simp] theorem cycleTransmit_cycArmed (s : State) : (cycleTransmit s).cycArmed = s.cycArmed := by
  rcases cycleTransmit_cases s with h | h <;> simp [h]

@[simp] theorem cycleTransmit_phase (s : State) : (cycleTransmit s).phase = s.phase := by
  rcases cycleTransmit_cases s with h | h <;> simp [h]

/-- A Transmit changes neither pixel nor brightness, so it leaves the frame as it is. -/
@[simp] theorem frame_transmit (s : State) : frame (transmit s) = frame s := by rw [transmit_eq]; rfl

/-- A Transmit of a linked block is a frame alone (R78). -/
theorem transmitEvents_of_linked (h : s.linked = true) : transmitEvents s = bytesEvents (frame s) := by
  rw [transmitEvents, if_pos h, List.nil_append]

/-- One frame, by parameter (R99). -/
theorem cycleTransmit_trace_of_single (h : s.cfg.cycleDoubleShow = false) :
    (cycleTransmit s).trace =
      s.trace ++ (if s.linked then [] else lazyInitEvents) ++ bytesEvents (frame (cycleTransmit s)) := by
  rw [cycleTransmit_of_single h, transmit_trace, transmitEvents, frame_transmit, List.append_assoc]

/-- Two frames: the first Transmit links the block and leaves its frame as it was, so the second is the same frame alone (R99). -/
theorem cycleTransmit_trace_of_double (h : s.cfg.cycleDoubleShow = true) :
    (cycleTransmit s).trace =
      s.trace ++ (if s.linked then [] else lazyInitEvents) ++ bytesEvents (frame (cycleTransmit s))
        ++ bytesEvents (frame (cycleTransmit s)) := by
  rw [cycleTransmit_of_double h, transmit_trace, transmitEvents_of_linked (transmit_linked s), transmit_trace, transmitEvents]
  simp only [frame_transmit, List.append_assoc]

end Cycle

end Sys2Proof.Machine

open Sys2Proof Sys2Proof.Machine

/-- Settles O34: the wrapped difference is 0 at equality, and below 2^31 exactly for a time at or after a near deadline. -/
theorem eligibilityIsWrapSafe : Obligations.EligibilityIsWrapSafe := by
  intro s
  refine ⟨eligible_of_unarmed, fun ha => ?_, fun h => ?_, fun time deadline ha hnow hdeadline hafter hbefore => ?_⟩
  · rw [eligible_iff_of_armed ha, BitVec.toNat_sub, Nat.add_comm, ← Nat.add_sub_assoc s.cycDeadline.isLt.le]
  · simp [eligible, h]
  · rw [eligible_iff_of_armed ha, hnow, hdeadline]
    exact sub_toNat_lt_iff_le hafter hbefore

/-- Settles O36: the call leaves the limiter armed with its deadline, which is all that decides the next call. -/
theorem deadlineComesFromTheEligibleCall : Obligations.DeadlineComesFromTheEligibleCall := by
  intro s interval he
  have hdeadline := cycleTransmit_cycDeadline (advanceWheel interval s)
  have harmed := cycleTransmit_cycArmed (advanceWheel interval s)
  refine ⟨_, exec_cycle_of_eligible he interval, hdeadline, harmed, fun now interval' => ?_⟩
  have next := eligible_iff_of_armed (s := { cycleTransmit (advanceWheel interval s) with nowMs := now }) harmed
  rw [hdeadline] at next
  refine ⟨fun h => ⟨_, exec_cycle_of_eligible (next.mpr h) interval', cycleTransmit_phase _⟩, fun h => ?_⟩
  exact exec_cycle_of_ineligible (Bool.eq_false_iff.mpr (mt next.mp h)) interval'

/-- Settles O38, law by law, from the three segments: red to green is the third, green to blue the second, blue to red the first. -/
theorem wheelLaws : Obligations.WheelLaws := by
  refine ⟨wheel_sum, fun p => ⟨fun h => ?_, fun h h' => ?_, fun h => ?_⟩, wheel_succ_near, by decide, by decide, by decide, by decide,
    fun p q hpq => ⟨fun hq => ?_, fun hp hq => ?_, fun hp => ?_⟩, fun p q => phases_of_wheel_eq⟩
  · obtain ⟨-, -, -, hg⟩ := wheel_first (p := p) h.le
    exact BitVec.eq_of_toNat_eq hg
  · obtain ⟨-, -, -, hr⟩ := wheel_second (p := p) h h'.le
    exact BitVec.eq_of_toNat_eq hr
  · obtain ⟨-, -, -, hb⟩ := wheel_third (p := p) h
    exact BitVec.eq_of_toNat_eq hb
  · have atQ : 170 ≤ wheelPos q := Nat.sub_le_sub_left hq 255
    have hlt := wheelPos_lt hpq
    exact ((wheel_third atQ).strict (wheel_third (atQ.trans hlt.le)) (Nat.sub_lt_sub_right atQ hlt)).symm
  · have atP : wheelPos p ≤ 170 := Nat.sub_le_sub_left hp 255
    have atQ : 85 ≤ wheelPos q := Nat.sub_le_sub_left hq 255
    have hlt := wheelPos_lt hpq
    exact ((wheel_second atQ (hlt.le.trans atP)).strict (wheel_second (atQ.trans hlt.le) atP) (Nat.sub_lt_sub_right atQ hlt)).symm
  · have atP : wheelPos p ≤ 85 := Nat.sub_le_sub_left hp 255
    have hlt := wheelPos_lt hpq
    exact ((wheel_first (hlt.le.trans atP)).strict (wheel_first atP) hlt).symm

/-- Settles O39: the transmissions' events, from the state in which the wheel has been stepped. -/
theorem cycleSendsTwoFramesOrOne : Obligations.CycleSendsTwoFramesOrOne :=
  ⟨rfl, fun s interval he => ⟨_, exec_cycle_of_eligible he interval,
    cycleTransmit_trace_of_double (s := advanceWheel interval s), cycleTransmit_trace_of_single (s := advanceWheel interval s)⟩⟩

/-- Settles O35: the registers are written first, and each Transmit is `afterTransmit`. -/
theorem eligibleCycleStepsTheWheel : Obligations.EligibleCycleStepsTheWheel := by
  intro s interval he
  rw [exec_cycle_of_eligible he, cycleTransmit, transmit_eq, transmit_eq]
  rfl

/-- Settles O37, segment by segment. -/
theorem wheelHasThreeSegments : Obligations.WheelHasThreeSegments := by
  intro p
  refine ⟨fun h => ?_, fun h h' => ?_, fun h => ?_⟩
  · obtain ⟨-, hr, hb, hg⟩ := wheel_first (p := p) h.le
    exact ⟨hr, hg, hb⟩
  · obtain ⟨-, hb, hg, hr⟩ := wheel_second (p := p) h h'.le
    exact ⟨hr, hg, hb⟩
  · obtain ⟨-, hg, hr, hb⟩ := wheel_third (p := p) h
    exact ⟨hr, hg, hb⟩

/-- Settles O40: not eligible, the whole command and its accept cycle are both the identity. -/
theorem ineligibleCycleDoesNothing : Obligations.IneligibleCycleDoesNothing := by
  intro s interval h
  refine ⟨exec_cycle_of_ineligible h interval, fun w hw => ?_⟩
  rw [accept_of_decode hw, startCommand, if_neg (by simp [h])]

end

section
/-!
PROOFS. Family 45_color_pack.md: COLOR (O41), and packing and unpacking a colour, which undo each other (O42).
-/

namespace Sys2Proof.Machine

/-- Packing the three channels of a packed value gives the value back (R102). -/
theorem packColor_channels (v : Packed) : packColor (packedRed v) (packedGreen v) (packedBlue v) = v := by
  have hv := v.isLt
  apply BitVec.eq_of_toNat_eq
  simp only [packColor_toNat, packedRed, packedGreen, packedBlue, BitVec.extractLsb'_toNat, Nat.shiftRight_eq_div_pow]
  omega

/-- The low 24 bits that the port reads at RESULT are the packed colour (R34, R39). -/
theorem portView_result_extractLsb' (s : State) : (portView 2#3 s).extractLsb' 0 24 = s.result :=
  (BitVec.extractLsb'_setWidth_of_le (by decide)).trans BitVec.extractLsb'_eq_self

end Sys2Proof.Machine

open Sys2Proof Sys2Proof.Machine

/-- Settles O42: RESULT gives the host the channels COLOR joined, which SETPIXP takes apart before it transmits. -/
theorem packAndUnpackAreInverse : Obligations.PackAndUnpackAreInverse := by
  refine ⟨fun r g b => ?_, packColor_channels, fun r g b s => ?_⟩
  · exact ⟨packedRed_append r g b, packedGreen_append r g b, packedBlue_append r g b⟩
  · refine ⟨storeResult r g b s, transmit (storePixel r g b (storeResult r g b s)), rfl, ?_, by simp⟩
    rw [portView_result_extractLsb']
    exact exec_of_setsColour (.inr (.inl rfl)) _

/-- Settles O41: the register takes the channels joined, whose number is the sum of the shifted channels. -/
theorem colorPacksIntoResult : Obligations.ColorPacksIntoResult :=
  fun r g b _ => ⟨packColor r g b, rfl, packColor_toNat r g b⟩

end

section
/-!
PROOFS. Family 70_reset_and_hazards.md: reset (O47) and a frame after it (O49), a frame after power-off (O50), and least durations (O33).
-/

namespace Sys2Proof.Machine

/-! ### Reset -/

/-- A reset is taken at once, whatever the block is doing (R117). -/
theorem step_of_reset {s : State} {x : Option PortAccess} {rest : List Input} (h : s.inputs = .reset x :: rest) :
    step s = .next (resetBlock x { s with inputs := rest }) := step_of_input h

theorem idle_resetBlock (x : Option PortAccess) (s : State) : Idle (resetBlock x s) := ⟨rfl, rfl, rfl⟩

@[simp] theorem resetBlock_inputs (x : Option PortAccess) (s : State) : (resetBlock x s).inputs = s.inputs := rfl

/-- The frame of a block just reset: no light, the brightness at its bypass (R80, R85, R117). -/
theorem frame_resetBlock (x : Option PortAccess) (s : State) :
    frame (resetBlock x s) = [0x00#8, 0x00#8, 0x00#8, 0x00#8, 0xFF#8, 0x00#8, 0x00#8, 0x00#8, 0xFF#8] := by
  simp [frame, resetBlock, State.reset]

/-! ### Least durations -/

theorem minDuration_append (es fs : List WireEvent) : minDuration (es ++ fs) = minDuration es + minDuration fs := by
  induction es with
  | nil => exact (Nat.zero_add _).symm
  | cons e es ih => rw [List.cons_append, minDuration, minDuration, ih, Nat.add_assoc]

/-- Sending items of one least duration each takes at least that much for each item. -/
theorem minDuration_flatMap {α : Type} {f : α → List WireEvent} {d : ℕ} (hf : ∀ a, minDuration (f a) = d) (xs : List α) :
    minDuration (xs.flatMap f) = xs.length * d := by
  induction xs with
  | nil => exact (Nat.zero_mul d).symm
  | cons x xs ih => rw [List.flatMap_cons, minDuration_append, hf, ih, List.length_cons, Nat.succ_mul, Nat.add_comm]

/-- A bit takes its three waits (R88). -/
theorem minDuration_bitEvents (b : Bool) : minDuration (bitEvents b) = tSetup + tClkHigh + tClkLow := by
  simp [bitEvents, minDuration, eventCycles, TimingParam.cycles, Nat.add_assoc]

/-- A byte takes its eight bits and its gap (R88, R89). -/
theorem minDuration_byteEvents (v : Byte) : minDuration (byteEvents v) = 8 * (tSetup + tClkHigh + tClkLow) + tGap := by
  rw [byteEvents, minDuration_append, minDuration_flatMap minDuration_bitEvents]
  rfl

end Sys2Proof.Machine

open Sys2Proof Sys2Proof.Machine

/-- Settles O33: a frame is nine bytes, each of eight bits and a gap; the settling delay is the one wait of lazy initialisation. -/
theorem frameDurationBound : Obligations.FrameDurationBound := by
  refine ⟨fun s => ?_, ?_⟩
  · rw [bytesEvents, minDuration_flatMap minDuration_byteEvents, show (frame s).length = 9 from rfl]
    ring
  · simp [lazyInitEvents, powerEnableEvents, minDuration, eventCycles, TimingParam.cycles]

/-- Settles O47: the step is `resetBlock`, which takes every field of R15 from the reset state. -/
theorem resetSetsEveryField : Obligations.ResetSetsEveryField := by
  intro s x rest h
  refine ⟨_, step_of_reset h, rfl, rfl, rfl, rfl, rfl, rfl, rfl, rfl, rfl, rfl, rfl, rfl, rfl, rfl, rfl, rfl, fun _ => rfl, ?_⟩
  rintro a rfl
  rfl

/-- Settles O49: reset leaves the block idle and unlinked with an empty trace, so the SHOW is a lazy Transmit of the reset pixel. -/
theorem resetDuringAFrameThenShow : Obligations.ResetDuringAFrameThenShow := by
  intro s x h
  have reset := step_of_reset h
  have sent := step_of_show (idle_resetBlock x _) (resetBlock_inputs x { s with inputs := [.command 0x06000000#32] })
  refine ⟨_, _, reset, rfl, rfl, (run_succ_of_step reset 1).trans (run_succ_of_step sent 0), ?_⟩
  rw [transmit_trace, transmitEvents_of_unlinked rfl, ← frame_resetBlock x s]
  rfl

/-- Settles O50: PowerDisable leaves pixel and brightness, and so the frame, as they are, and unlinks, so the SHOW is a lazy Transmit. -/
theorem pixelSurvivesPowerOff : Obligations.PixelSurvivesPowerOff := by
  intro s
  refine ⟨powerDisable s, transmit (powerDisable s), rfl, rfl, rfl, rfl, rfl, rfl, rfl, rfl, rfl, ?_⟩
  rw [transmit_trace, transmitEvents_of_unlinked (powerDisable_linked s), List.append_assoc]
  rfl

end

section
/-!
PROOFS. Family other: what a reset leaves alone (O48, log 18).
-/

namespace Sys2Proof.Machine

@[simp] theorem resetBlock_cfg (x : Option PortAccess) (s : State) : (resetBlock x s).cfg = s.cfg := rfl

@[simp] theorem resetBlock_nowMs (x : Option PortAccess) (s : State) : (resetBlock x s).nowMs = s.nowMs := rfl

end Sys2Proof.Machine

open Sys2Proof Sys2Proof.Machine

/-- Settles O48: the step is `resetBlock` on the state with its first input taken, and `resetBlock` keeps these three fields. -/
theorem resetLeavesTheOutsideAlone : Obligations.ResetLeavesTheOutsideAlone := by
  intro s x rest h
  exact ⟨_, step_of_reset h, resetBlock_cfg _ _, resetBlock_nowMs _ _, resetBlock_inputs _ _⟩

end

section
/-!
PROOFS. Family left unsettled by earlier sittings: a second host (O17), the record of illegal words (O44, O45), the time sample (O46).
-/

namespace Sys2Proof.Machine

variable {s t : State} {P : Word → Prop}

/-! ### The record of illegal words -/

/-- From `s` to `t` the record of illegal words is left alone, or it is what an illegal word that satisfies `P` makes of it (R104). -/
def Records (P : Word → Prop) (s t : State) : Prop :=
  (t.ill = s.ill ∧ t.errw = s.errw)
    ∨ ∃ w, P w ∧ decode w = .error (.illegalCommand w) ∧ t.ill = true ∧ t.errw = if s.ill then s.errw else w

theorem records_of_unchanged (hill : t.ill = s.ill) (herrw : t.errw = s.errw) : Records P s t := .inl ⟨hill, herrw⟩

theorem records_takeIllegal {w : Word} (hw : P w) (h : decode w = .error (.illegalCommand w)) (s : State) :
    Records P s (takeIllegal w s) := .inr ⟨w, hw, h, rfl, rfl⟩

/-- A record once made is neither cleared nor replaced (R105). -/
theorem Records.sticky (h : Records P s t) (hs : s.ill = true) : t.ill = true ∧ t.errw = s.errw := by
  obtain ⟨hill, herrw⟩ | ⟨w, -, -, hill, herrw⟩ := h
  · exact ⟨hill.trans hs, herrw⟩
  · exact ⟨hill, herrw.trans (if_pos hs)⟩

/-- The first record made is the illegal word accepted (R104). -/
theorem Records.first (h : Records P s t) (hs : s.ill = false) (ht : t.ill = true) :
    P t.errw ∧ decode t.errw = .error (.illegalCommand t.errw) := by
  obtain ⟨hill, -⟩ | ⟨w, hw, illegal, -, herrw⟩ := h
  · exact absurd (hill.symm.trans ht) (by simp [hs])
  · obtain rfl : t.errw = w := herrw.trans (if_neg (by simp [hs]))
    exact ⟨hw, illegal⟩

/-- No command touches the record (R103). -/
theorem exec_record {i : Instr} (h : exec i s = .next t) : t.ill = s.ill ∧ t.errw = s.errw := by
  obtain ⟨u, hu, -, -, -, -, -, -, hill, herrw, -⟩ := registersChangeOnlyByTheirCommands i s
  cases hu.symm.trans h
  exact ⟨hill, herrw⟩

/-- Nor does its accept cycle (R48 (a)). -/
theorem startCommand_record (i : Instr) (w : Word) (s : State) :
    (startCommand i w s).ill = s.ill ∧ (startCommand i w s).errw = s.errw := by
  obtain ⟨t, ht⟩ := exec_next i s
  obtain ⟨-, -, -, -, -, -, -, -, hill, herrw⟩ := startCommand_registersAgree ht w
  obtain ⟨hill', herrw'⟩ := exec_record ht
  exact ⟨hill.trans hill', herrw.trans herrw'⟩

theorem records_runWord {w : Word} (hw : P w) (h : runWord w s = .next t) : Records P s t := by
  obtain ⟨i, hi⟩ | ⟨illegal, -⟩ := decode_cases w
  · rw [runWord_of_decode hi] at h
    exact .inl (exec_record h)
  · rw [runWord_of_illegal illegal] at h
    cases h
    exact records_takeIllegal hw illegal s

theorem records_accept {w : Word} (hw : P w) (s : State) : Records P s (accept w s) := by
  obtain ⟨i, hi⟩ | ⟨illegal, -⟩ := decode_cases w
  · rw [accept_of_decode hi]
    exact .inl (startCommand_record i w s)
  · rw [accept_of_illegal illegal]
    exact records_takeIllegal hw illegal s

/-! ### Where a recorded word comes from -/

/-- The block running on by itself accepts no word but the one held (R46). -/
theorem records_advance (hP : ∀ w, s.held = some w → P w) : Records P s (advance s) := by
  cases hb : s.busy with
  | true =>
    rw [advance_of_busy hb]
    exact records_of_unchanged (tick_ill s) (tick_errw s)
  | false =>
    cases hh : s.held with
    | some w =>
      rw [advance_of_held hb hh]
      exact records_accept (hP w hh) { s with held := none, ready := true }
    | none =>
      rw [advance_of_idle hb hh]
      exact records_of_unchanged rfl rfl

/-- A transfer has no word accepted but the one it writes to CMD (R44). -/
theorem records_portAccess {x : PortAccess} (hP : ∀ w, x = .write 0#3 w → P w) (s : State) : Records P s (portAccess x s) := by
  cases x with
  | read a => exact records_of_unchanged rfl rfl
  | write a d =>
    simp only [portAccess, portWrite]
    split_ifs with ha hb
    · exact records_of_unchanged rfl rfl
    · exact records_accept (hP d (by rw [ha])) { s with ready := true }
    · exact records_of_unchanged rfl rfl

/-- A bridge access that is taken is one of the four bytes of a register, and is that register's transfer (R41). -/
theorem bridgeAccess_cases {offset count : ℕ} {x : PortAddr → PortAccess} (h : bridgeAccess offset count x s = .next t) :
    ∃ a < 8, offset = 4 * a ∧ count = 4 ∧ t = portAccess (x (BitVec.ofNat 3 a)) s := by
  unfold bridgeAccess at h
  split_ifs at h with ho hw
  obtain ⟨hword, hcount⟩ := hw
  cases h
  exact ⟨offset / 4, by omega, by omega, hcount, rfl⟩

theorem records_bridgeRead {offset count : ℕ} (h : bridgeAccess offset count .read s = .next t) : Records P s t := by
  obtain ⟨a, -, -, -, rfl⟩ := bridgeAccess_cases h
  exact records_portAccess (fun _ hw => nomatch hw) s

theorem wordOfBytes_of_length {bytes : List Byte} (h : bytes.length = 4) : ∃ w, wordOfBytes bytes = some w := by
  obtain ⟨b0, b1, b2, b3, rfl⟩ := List.length_eq_four.mp h
  exact ⟨_, rfl⟩

/-- A bridge write has no word accepted but the one its bytes make, at CMD's offset 0 (R41). -/
theorem records_bridgeWrite {offset : ℕ} {bytes : List Byte} (hP : ∀ w, offset = 0 → wordOfBytes bytes = some w → P w)
    (h : bridgeWrite offset bytes s = .next t) : Records P s t := by
  obtain ⟨a, ha, rfl, hcount, rfl⟩ := bridgeAccess_cases h
  obtain ⟨d, hd⟩ := wordOfBytes_of_length hcount
  refine records_portAccess (fun w hw => ?_) s
  obtain ⟨hcmd, rfl⟩ : BitVec.ofNat 3 a = 0#3 ∧ d = w := by simpa [hd] using hw
  have := congrArg BitVec.toNat hcmd
  rw [BitVec.toNat_ofNat, BitVec.toNat_ofNat] at this
  exact hP d (by omega) hd

/-- The words a step may accept: the one held, or the one presented as a command, a CMD write or a bridge write to CMD (R41, R44, R46). -/
def Offered (s : State) (w : Word) : Prop :=
  s.held = some w
    ∨ s.inputs.head? = some (.command w)
    ∨ s.inputs.head? = some (.access (.write 0#3 w))
    ∨ ∃ bytes, wordOfBytes bytes = some w ∧ s.inputs.head? = some (.bridgeWrite 0 bytes)

/-- A transfer or a date of the host records an offered word or nothing. -/
theorem transfer_records {x : Input} {rest : List Input} (hx : IsTransfer x) (hin : s.inputs = x :: rest) (h : step s = .next t) :
    Records (Offered s) s t := by
  cases hh : s.held with
  | some w =>
    rw [step_of_transfer_held hh hx hin] at h
    cases h
    exact records_advance fun _ => .inl
  | none =>
    have hf : hostFree s = true := by simp [hostFree, hh]
    have presented : s.inputs.head? = some x := by rw [hin]; rfl
    obtain ⟨w, rfl⟩ | ⟨a, rfl⟩ | rfl | ⟨n, rfl⟩ | ⟨o, n, rfl⟩ | ⟨o, bs, rfl⟩ := hx
    · rw [step_of_input hin] at h
      cases hb : s.busy with
      | false =>
        have hrun : runWord w { s with inputs := rest, ready := true } = .next t := by simpa [present, hf, hb] using h
        exact records_runWord (s := { s with inputs := rest, ready := true }) (.inr (.inl presented)) hrun
      | true =>
        obtain rfl : advance { s with ready := false } = t := by simpa [present, hf, hb] using h
        exact records_advance (s := { s with ready := false }) fun _ => .inl
    · rw [step_of_access hh hin] at h
      cases h
      refine records_portAccess ?_ { s with inputs := rest }
      rintro w rfl
      exact .inr (.inr (.inl presented))
    · cases hb : s.busy with
      | false =>
        rw [step_of_waitIdle_idle hb hh hin] at h
        cases h
        exact records_of_unchanged rfl rfl
      | true =>
        rw [step_of_waitIdle_busy hb hh hin] at h
        cases h
        exact records_of_unchanged (tick_ill _) (tick_errw _)
    · rw [step_of_input hin] at h
      obtain rfl : { s with inputs := rest, nowMs := n } = t := by simpa [present, hf] using h
      exact records_of_unchanged rfl rfl
    · rw [step_of_bridgeRead hh hin] at h
      exact records_bridgeRead (s := { s with inputs := rest }) h
    · rw [step_of_bridgeWrite hh hin] at h
      refine records_bridgeWrite (s := { s with inputs := rest }) ?_ h
      rintro w rfl hbytes
      exact .inr (.inr (.inr ⟨bs, hbytes, presented⟩))

/-- A step but a reset records an offered word or nothing (R105). -/
theorem step_records (h : step s = .next t) (hreset : ¬ResetNext s) : Records (Offered s) s t := by
  cases hin : s.inputs with
  | nil =>
    rw [step_of_no_input hin] at h
    cases h
    exact records_advance fun _ => .inl
  | cons x rest =>
    cases x with
    | reset x => exact absurd ⟨x, by rw [hin]; rfl⟩ hreset
    | secondHost => rw [step_of_input hin] at h; cases h
    | time n =>
      rw [step_of_input hin] at h
      cases h
      exact records_of_unchanged rfl rfl
    | tick =>
      rw [step_of_input hin] at h
      cases h
      exact records_advance (s := { s with inputs := rest }) fun _ => .inl
    | _ => exact transfer_records (by simp [IsTransfer]) hin h

/-! ### The time sample -/

/-- A Transmit does not read `now_ms` (R78, R112). -/
theorem transmit_withNowMs (s : State) (now : Word) :
    transmit { s with nowMs := now } = { transmit s with nowMs := now } := by
  rw [transmit_eq, transmit_eq]
  rfl

end Sys2Proof.Machine

open Sys2Proof Sys2Proof.Machine

/-- Settles O17: whatever the block is doing, the step presents the transfer, which is refused. -/
theorem secondHostIsRefused : Obligations.SecondHostIsRefused := fun _ _ h => step_of_input h

/-- Settles O44: every command answers a next state with the record as it was. -/
theorem noCommandRaisesAnException : Obligations.NoCommandRaisesAnException := by
  refine ⟨rfl, rfl, fun i s => ?_⟩
  obtain ⟨t, ht⟩ := exec_next i s
  exact ⟨t, ht, exec_record ht⟩

/-- Settles O45: a step but a reset records an offered word or nothing, and a reset is taken at once. -/
theorem illegalRecordIsStickyUntilReset : Obligations.IllegalRecordIsStickyUntilReset := by
  refine ⟨fun s t h hreset => ?_, fun s ⟨x, hx⟩ => ?_⟩
  · have records := step_records h hreset
    exact ⟨records.sticky, fun hs ht => (records.first hs ht).symm⟩
  · obtain ⟨rest, hin⟩ := List.head?_eq_some_iff.mp hx
    exact ⟨_, step_of_reset hin, rfl, rfl⟩

/-- Settles O46: every other command is register updates that do not read `now_ms`, SETPWR's events, or these and then one Transmit. -/
theorem onlyCycleReadsTheTime : Obligations.OnlyCycleReadsTheTime := by
  intro i s now hcycle
  cases i with
  | setPwr en => cases en <;> exact ⟨_, rfl, rfl⟩
  | setBri level => exact ⟨_, rfl, rfl⟩
  | setPix r g b => exact ⟨_, rfl, congrArg Host.Outcome.next (transmit_withNowMs (storePixel r g b s) now)⟩
  | setPixP packed => exact ⟨_, rfl, congrArg Host.Outcome.next (transmit_withNowMs (storePacked packed s) now)⟩
  | clear => exact ⟨_, rfl, congrArg Host.Outcome.next (transmit_withNowMs (clearPixel s) now)⟩
  | showPixel => exact ⟨_, rfl, congrArg Host.Outcome.next (transmit_withNowMs s now)⟩
  | cycle interval => exact absurd rfl (hcycle interval)
  | color r g b => exact ⟨_, rfl, rfl⟩

end
